-- ==== Sys2Proof/Word.lean ====
section
/-! DEFINITION. The widths of the engine (00_scope.md R5, R6): a word is 32 bits, a byte 8, a nibble 4;
every quantity is an unsigned bit vector. Only the types stand here; what is computed with them is in Machine/. -/

namespace Sys2Proof

/-- A word, 32 bits (R5 `W`, R6). -/
abbrev Word := BitVec 32

/-- A byte, 8 bits (R6). -/
abbrev Byte := BitVec 8

/-- A nibble, 4 bits (R6). -/
abbrev Nibble := BitVec 4

/-- The register pair `(N1, N2)` as a value (R11). -/
abbrev Pair := Word × Word

/-- A key: eight words, order-significant (R10). -/
abbrev Key := Vector Word 8

end Sys2Proof
end

