-- ==== Sys2Proof/Syntax.lean ====
section
/-! DEFINITION. The syntax of what can be asked of the engine: the eight commands (30_encoding.md R47), the two host
transactions (R45), and the two forms in which they are written down (R45, formats C and T). -/

namespace Sys2Proof

/-- The index of a key word, 0 to 7 (10_state.md R10, 30_encoding.md R48). -/
abbrev KeyIndex := Fin 8

/-- The eight assigned opcodes (R47). -/
inductive Opcode where
  | encb
  | decb
  | encode
  | decode
  | round
  | subst
  | add32
  | addm1
  deriving DecidableEq, Repr

/-- The host-visible register slots (10_state.md R19), one name for each of the 16 slot numbers. -/
inductive Slot where
  | key (i : KeyIndex)
  | data0
  | data1
  | bufAddr
  | bufLen
  | ctrl
  | status
  | reservedE
  | reservedF
  deriving DecidableEq, Repr

/-- The two fields of a command word that carry information (R45 format C): `OP` and `KIDX`. -/
structure Command where
  op   : Opcode
  kidx : KeyIndex
  deriving DecidableEq, Repr

/-- One constructor per row of spec/opcode_table.json. The operands that a command does not name are the registers
(R48). -/
inductive Instr where
  | encb
  | decb
  | encode
  | decode
  | round (k : KeyIndex)
  | subst
  | add32
  | addm1
  | wr (slot : Slot) (value : Word)
  | rd (slot : Slot)
  deriving DecidableEq, Repr

/-- What is presented to the engine, as bits: a command word (format C) or a transaction triple `we || addr || wdata`
(format T), R45. -/
inductive Form where
  | command (c : Word)
  | transaction (t : BitVec 37)
  deriving DecidableEq, Repr

/-- The instruction a command stands for (R47). -/
def Command.toInstr : Command → Instr
  | ⟨.encb, _⟩ => .encb
  | ⟨.decb, _⟩ => .decb
  | ⟨.encode, _⟩ => .encode
  | ⟨.decode, _⟩ => .decode
  | ⟨.round, k⟩ => .round k
  | ⟨.subst, _⟩ => .subst
  | ⟨.add32, _⟩ => .add32
  | ⟨.addm1, _⟩ => .addm1

/-- The command of a command instruction, none for the two transactions (R47). -/
def Instr.command? : Instr → Option Command
  | .encb => some ⟨.encb, 0⟩
  | .decb => some ⟨.decb, 0⟩
  | .encode => some ⟨.encode, 0⟩
  | .decode => some ⟨.decode, 0⟩
  | .round k => some ⟨.round, k⟩
  | .subst => some ⟨.subst, 0⟩
  | .add32 => some ⟨.add32, 0⟩
  | .addm1 => some ⟨.addm1, 0⟩
  | .wr _ _ => none
  | .rd _ => none

end Sys2Proof
end

