-- ==== Sys2Proof/WellFormed.lean ====
section
/-! DEFINITION. When a command word is legal (30_encoding.md R46, R49) and when a command is well formed. The operands of
`Instr` are of types that hold nothing else (`KeyIndex`, `Slot`), so every `Instr` is well formed; the checks that can fail
are on words and on `Command`. -/

namespace Sys2Proof

/-- Bits 3:0 of a command word (R45). -/
def opField (c : Word) : BitVec 4 := c.extractLsb' 0 4

/-- Bits 6:4 of a command word (R45). -/
def kidxField (c : Word) : BitVec 3 := c.extractLsb' 4 3

/-- Bits 31:7 of a command word (R45). -/
def zeroField (c : Word) : BitVec 25 := c.extractLsb' 7 25

/-- `OP` is one of the eight assigned opcodes, 0x1 to 0x8 (R47, R49). -/
def opAssigned (op : BitVec 4) : Bool := 1 ≤ op.toNat && op.toNat ≤ 8

/-- `KIDX` = 0 unless `OP` = ROUND, which is 0x5 (R46). -/
def kidxAllowed (op : BitVec 4) (k : BitVec 3) : Bool := op == 5 || k == 0

/-- A legal command word (R46): three checks, each of which can fail. -/
def legalWord (c : Word) : Bool :=
  zeroField c == 0 && opAssigned (opField c) && kidxAllowed (opField c) (kidxField c)

/-- A well-formed command: only ROUND carries a subkey index (R46, R48). -/
def Command.wellFormed (c : Command) : Bool := c.op == .round || c.kidx == 0

/-- A well-formed instruction: where it is a command, that command is well formed (R46). -/
def Instr.wellFormed (i : Instr) : Bool :=
  match i.command? with
  | some c => c.wellFormed
  | none => true

end Sys2Proof
end

