-- ==== Sys2Proof/Decode.lean ====
section
/-! DEFINITION. From bits to instructions and back (30_encoding.md R45 to R50). The decoder is total and rejects by name;
decoding uses nothing but the bits (R46). The encoder stands after it, written from the same tables. -/

namespace Sys2Proof

/-- Why a word or a number is no instruction (R49). -/
inductive Reject where
  /-- a bit of `ZERO` (bits 31:7) is set -/
  | zeroFieldSet
  /-- `OP` is 0x0 or 0x9 to 0xF -/
  | opcodeUnassigned
  /-- `KIDX` is not 0 although `OP` is not ROUND -/
  | kidxNotZero
  /-- a number that is wider than the 37 bits of a transaction -/
  | widerThanTransaction
  deriving DecidableEq, Repr

/-- The opcode map (R47), number to name. -/
def Opcode.ofCode (op : BitVec 4) : Option Opcode :=
  match op.toNat with
  | 1 => some .encb
  | 2 => some .decb
  | 3 => some .encode
  | 4 => some .decode
  | 5 => some .round
  | 6 => some .subst
  | 7 => some .add32
  | 8 => some .addm1
  | _ => none

/-- Command decoding (R46, R48, R49): `ZERO`, then `OP`, then `KIDX`, zero-extended. -/
def decodeCommand (c : Word) : Except Reject Command :=
  if zeroField c ≠ 0 then .error .zeroFieldSet
  else
    match Opcode.ofCode (opField c) with
    | none => .error .opcodeUnassigned
    | some op =>
      if kidxAllowed (opField c) (kidxField c) then .ok ⟨op, (kidxField c).toFin⟩
      else .error .kidxNotZero

/-- The slot a 4-bit slot number selects (10_state.md R19). -/
def Slot.ofNumber (a : BitVec 4) : Slot :=
  match a.toNat with
  | 8 => .data0
  | 9 => .data1
  | 10 => .bufAddr
  | 11 => .bufLen
  | 12 => .ctrl
  | 13 => .status
  | 14 => .reservedE
  | 15 => .reservedF
  | _ => .key (a.extractLsb' 0 3).toFin

/-- Transaction decoding (R45 format T): `we` = bit 36, `addr` = bits 35:32, `wdata` = bits 31:0, ignored for a read.
Every triple is a transaction (R50). -/
def decodeTransaction (t : BitVec 37) : Instr :=
  if t.getLsbD 36 then .wr (Slot.ofNumber (t.extractLsb' 32 4)) (t.extractLsb' 0 32)
  else .rd (Slot.ofNumber (t.extractLsb' 32 4))

/-- Decoding of whatever is presented to the engine (R45). -/
def decode : Form → Except Reject Instr
  | .command c =>
    match decodeCommand c with
    | .ok cmd => .ok cmd.toInstr
    | .error r => .error r
  | .transaction t => .ok (decodeTransaction t)

/-- The form that `nbits` and the number `w` of an opcode-table row stand for (bit 0 the least significant, R45): a row of
32 bits is a command word, a wider one the 37-bit transaction. -/
def formOfTable (nbits w : Nat) : Except Reject Form :=
  if nbits ≤ 32 then .ok (.command (BitVec.ofNat 32 (w % 2 ^ nbits)))
  else if w < 2 ^ 37 then .ok (.transaction (BitVec.ofNat 37 w))
  else .error .widerThanTransaction

/-- What the decoder reads from an opcode-table row's number (the host's question). -/
def decodeTableWord (nbits w : Nat) : Option Instr :=
  match formOfTable nbits w with
  | .error _ => none
  | .ok f =>
    match decode f with
    | .ok i => some i
    | .error _ => none

/-- The opcode map (R47), name to number. -/
def Opcode.code : Opcode → BitVec 4
  | .encb => 0x1
  | .decb => 0x2
  | .encode => 0x3
  | .decode => 0x4
  | .round => 0x5
  | .subst => 0x6
  | .add32 => 0x7
  | .addm1 => 0x8

/-- Command word assembly: `ZERO || KIDX || OP` (R45 format C, R47). -/
def Command.word (c : Command) : Word :=
  (0 : BitVec 25) ++ (BitVec.ofFin c.kidx : BitVec 3) ++ c.op.code

/-- The slot number of a slot (10_state.md R19, 30_encoding.md R52 `addr(slot)`). -/
def Slot.number : Slot → BitVec 4
  | .key i => BitVec.ofNat 4 i.val
  | .data0 => 0x8
  | .data1 => 0x9
  | .bufAddr => 0xA
  | .bufLen => 0xB
  | .ctrl => 0xC
  | .status => 0xD
  | .reservedE => 0xE
  | .reservedF => 0xF

/-- The 37-bit number of a transaction: `we || addr || wdata` (R45 format T). -/
def transactionBits (we : BitVec 1) (slot : Slot) (wdata : Word) : BitVec 37 :=
  we ++ slot.number ++ wdata

/-- The encoder: the form of an instruction, from the tables of R45 and R47. The ignored data of a read is written 0. -/
def encode : Instr → Form
  | .encb => .command (Command.mk .encb 0).word
  | .decb => .command (Command.mk .decb 0).word
  | .encode => .command (Command.mk .encode 0).word
  | .decode => .command (Command.mk .decode 0).word
  | .round k => .command (Command.mk .round k).word
  | .subst => .command (Command.mk .subst 0).word
  | .add32 => .command (Command.mk .add32 0).word
  | .addm1 => .command (Command.mk .addm1 0).word
  | .wr slot v => .transaction (transactionBits 1 slot v)
  | .rd slot => .transaction (transactionBits 0 slot 0)

/-- A form as the number an opcode-table row would hold, with its width in whole bytes. -/
def Form.tableWord : Form → Nat × Nat
  | .command c => (32, c.toNat)
  | .transaction t => (40, t.toNat)

end Sys2Proof
end

