-- ==== Sys2Proof/Config.lean ====
section
/-! DEFINITION. What is fixed for one engine (00_scope.md R5) and the values the spec leaves open.
What is `opaque` here has no body: no proof can see what it is. -/

namespace Sys2Proof

/-- The substitution tables: byte position `j` in 0..3, table `t` (0 = low nibble, 1 = high nibble), input nibble
(R5, R21, R60; 90_conflicts.md C1: eight nibble tables). -/
abbrev SboxTables := Fin 4 → Fin 2 → Nibble → Nibble

/-- The engine's own tables, the OPEN parameter `SBOX` (R5, 92_eei_decisions.md D11, 93_implementation_defined.md U10):
constrained by nothing. Safe: what is proved holds for every table set. Log entry 4. -/
opaque Config.sbox : SboxTables

/-- What the platform's buffer memory holds at an address that nothing has written since the machine's first state: the OPEN
parameter `MEM` (R5, R23), a total map from byte address to byte, constrained by nothing. Safe. Log entry 5. -/
opaque Config.platformByte : Word → Byte

/-- FREE VALUE. Which bytes of a block the engine had stored already when reset cut its store short (70_reset_and_hazards.md
R151, U7) or when another agent wrote into it (20_memory.md R36, R38, U6); bit `i` is byte `i`. Applied to
`State.freeIdx`. Safe. Log entries 8 and 9. -/
opaque Config.storedBytes : Nat → BitVec 8

/-- FREE VALUE. Which bytes of a block the engine had read already when another agent wrote into it (R36, R38, U6); bit `i` is
byte `i`. Applied to `State.freeIdx`. Safe. Log entry 8. -/
opaque Config.readBytes : Nat → BitVec 8

/-- Rounds per block, `NROUNDS` (R5). -/
def Config.numRounds : Nat := 32

/-- Left-rotation amount of the round, `ROT` (R5). -/
def Config.rotation : Nat := 11

end Sys2Proof
end

