-- ==== Sys2Proof/Machine/State.lean ====
section
/-! DEFINITION. The state of the machine as plain data: the engine's registers and hidden sequencing state (10_state.md),
the buffer memory it reaches, what the outside world does next, and the model's one free-value counter. -/

namespace Sys2Proof.Machine

/-- `PHASE`, equal to `STATUS.BUSY` at all times (10_state.md R15): the one home of both. -/
inductive Phase where
  | idle
  | run
  deriving DecidableEq, Repr

/-- `DIR` (R15): 0 = encrypt, 1 = decrypt. -/
inductive Direction where
  | encrypt
  | decrypt
  deriving DecidableEq, Repr

/-- `BPH` (R15): `LOAD` 0, `ROUNDS` 1, `STORE` 2. -/
inductive BlockPhase where
  | load
  | rounds
  | store
  deriving DecidableEq, Repr

/-- The buffer memory, as the bytes that have been written: (address, byte) cells, addresses strictly rising (20_memory.md
R30; canonical form: `Memory.wf`). An unlisted address has no value here; it reads as the platform's byte (log entry 5). -/
abbrev Memory := List Host.Cell

/-- One thing the outside world does (44_host_transactions.md R121; log entries 1, 3, 6, 8). -/
inductive Input where
  /-- the host presents a transaction, or a command word and then waits (30_encoding.md R45, R53 `RUN`) -/
  | present (f : Form)
  /-- nothing from outside: the engine takes its next step first -/
  | engine
  /-- a clock edge with `rst` = 1 (70_reset_and_hazards.md R150) -/
  | reset
  /-- another agent writes one byte of the buffer memory (20_memory.md R38, 70_reset_and_hazards.md R152) -/
  | memWrite (a : Word) (b : Byte)
  /-- the memory begins or stops answering the master port (R123 `m_ack`, R157) -/
  | memReady (answers : Bool)
  deriving DecidableEq, Repr

/-- Why the machine stops with a fault: never. The engine has no traps (60_exceptions.md R130), no operation fails (R139), and
what breaks the ownership rule 20_memory.md R38 does not stop it (93_implementation_defined.md U6). No constructor, so that
nothing can raise one. -/
inductive Fault where
  deriving DecidableEq, Repr

/-- Why an instruction has no meaning. -/
inductive Refusal where
  /-- Raised by an arm of `exec` that has no meaning yet; no arm is left so. Safe. -/
  | notModelled (mnemonic : String)
  deriving DecidableEq, Repr

/-- The machine. -/
structure State where
  /-- `K[0..7]` (R10) -/
  k : Vector Word 8
  /-- `N1` (R11) -/
  n1 : Word
  /-- `N2` (R11) -/
  n2 : Word
  /-- `BUF_ADDR` (R12) -/
  bufAddr : Word
  /-- `BUF_LEN` (R12) -/
  bufLen : Word
  /-- `PHASE` and `STATUS.BUSY` (R13, R15) -/
  phase : Phase
  /-- `STATUS.DONE` (R13) -/
  done : Bool
  /-- `STATUS.ERR` (R13) -/
  err : Bool
  /-- `STATUS.ERRCODE` (R13, R131) -/
  errCode : BitVec 4
  /-- `OPC` (R15); `none` is the unassigned code 0 that reset leaves -/
  opc : Option Opcode
  /-- `KSEL` (R15) -/
  ksel : KeyIndex
  /-- `DIR` (R15) -/
  dir : Direction
  /-- `RC` (R15) -/
  rc : BitVec 6
  /-- `BPH` (R15) -/
  bph : BlockPhase
  /-- `PTR` (R15) -/
  ptr : Word
  /-- `CNT` (R15) -/
  cnt : BitVec 29
  /-- the value the last read returned to the host (R45, R117); the host's side, no engine register -/
  rdata : Word
  /-- the buffer memory (R30) -/
  mem : Memory
  /-- whether the memory answers the master port (R123, R157) -/
  memReady : Bool
  /-- bytes of the window that the engine has read before their turn in the reference order, each with the value it read
  (20_memory.md R36, R38); empty unless another agent has written into the window; the model's own field, log entry 8 -/
  readEarly : Memory
  /-- bytes of the window that the engine has stored before their turn, likewise -/
  storedEarly : Memory
  /-- what the outside world does next, in order (R121); the model's own field -/
  inputs : List Input
  /-- which free value comes next; the model's own field -/
  freeIdx : Nat
  deriving DecidableEq, Repr

/-- The machine right after reset: every piece of engine state is zero and the engine idle (10_state.md R20, R150). What is
not the engine's (`rdata`, `mem`, `memReady`, `inputs`, `freeIdx`) has a value the log names (entries 1, 5, 6, 8, 11, 12). -/
def State.reset : State where
  k := Vector.replicate 8 0
  n1 := 0
  n2 := 0
  bufAddr := 0
  bufLen := 0
  phase := .idle
  done := false
  err := false
  errCode := 0
  opc := none
  ksel := 0
  dir := .encrypt
  rc := 0
  bph := .load
  ptr := 0
  cnt := 0
  rdata := 0
  mem := []
  memReady := true
  readEarly := []
  storedEarly := []
  inputs := []
  freeIdx := 0

end Sys2Proof.Machine
end

