-- ==== Sys2Proof/Machine/Ops.lean ====
section
/-! DEFINITION. The named operations over memory and registers, and the engine's one form of exception: recording an error
(60_exceptions.md R136) and, beside it, clearing the record (R137). -/

namespace Sys2Proof.Machine

/-! ### Bytes and words -/

/-- `be32(b0, b1, b2, b3)`: `b0` most significant (00_scope.md R7). -/
def be32 (b0 b1 b2 b3 : Byte) : Word := b0 ++ b1 ++ b2 ++ b3

/-- Byte `j` of a word, counted from the least significant (40_primitives.md R61). -/
def byteOf (w : Word) (j : Nat) : Byte := w.extractLsb' (8 * j) 8

/-- `bytes_be(w)`: most significant byte first (R7). -/
def bytesBe (w : Word) : List Byte := [byteOf w 3, byteOf w 2, byteOf w 1, byteOf w 0]

/-! ### Buffer memory -/

/-- The byte listed for an address, if there is one. -/
def lookup : Memory → Nat → Option Byte
  | [], _ => none
  | (x, b) :: rest, a => if x = a then some b else lookup rest a

/-- A single-byte read (20_memory.md R33): total, never an error (R42). A byte that nothing has written is the platform's
(00_scope.md R5 `MEM`). -/
def Memory.read (m : Memory) (a : Word) : Byte := (lookup m a.toNat).getD (Config.platformByte a)

/-- A listed byte put where it belongs in the rising order. -/
def insertCell : Memory → Nat → Byte → Memory
  | [], a, b => [(a, b)]
  | (x, c) :: rest, a, b =>
    if a < x then (a, b) :: (x, c) :: rest
    else if a = x then (a, b) :: rest
    else (x, c) :: insertCell rest a b

/-- A single-byte write (R33): always taken (R42). -/
def Memory.write (m : Memory) (a : Word) (b : Byte) : Memory := insertCell m a.toNat b

/-- Every address of the list is at least `lo`, in strictly rising order, and below 2^32. -/
def cellsFrom : Nat → Memory → Bool
  | _, [] => true
  | lo, (x, _) :: rest => lo ≤ x && x < 2 ^ 32 && cellsFrom (x + 1) rest

/-- The canonical form of memory. -/
def Memory.wf (m : Memory) : Bool := cellsFrom 0 m

/-- `MemRead(a, n)`: `n` single-byte reads at `a`, `a+1`, ... (mod 2^32), in that order (R7, R33). -/
def memRead (m : Memory) (a : Word) : Nat → List Byte
  | 0 => []
  | n + 1 => m.read a :: memRead m (a + 1) n

/-- `MemWrite(a, n, b)`: single-byte writes in ascending order, the reference order (R33). -/
def memWrite (m : Memory) (a : Word) : List Byte → Memory
  | [] => m
  | b :: rest => memWrite (m.write a b) (a + 1) rest

/-- Eight bytes as a block: `N1` = the first four, `N2` = the last four, each big-endian (20_memory.md R31). -/
def pairOfBytes (b : List Byte) : Pair :=
  (be32 (b.getD 0 0) (b.getD 1 0) (b.getD 2 0) (b.getD 3 0), be32 (b.getD 4 0) (b.getD 5 0) (b.getD 6 0) (b.getD 7 0))

/-- `LoadBlock(a)` (R31): `b <- MemRead(a, 8)`. -/
def loadBlock (m : Memory) (a : Word) : Pair := pairOfBytes (memRead m a 8)

/-- The eight bytes of a block, in memory order (R31). -/
def blockBytes (p : Pair) : List Byte := bytesBe p.1 ++ bytesBe p.2

/-- `StoreBlock(a)` (R31). -/
def storeBlock (m : Memory) (a : Word) (p : Pair) : Memory := memWrite m a (blockBytes p)

/-- Part of a store: of the bytes, those that `mask` selects are written, but for the addresses that `skip` lists. What reset
leaves of a store (70_reset_and_hazards.md R151), and what is left to store of a block that was begun early (20_memory.md
R35: each byte is written once). -/
def storeSome (skip m : Memory) (a : Word) : List Byte → BitVec 8 → Memory
  | [], _ => m
  | b :: rest, mask =>
    storeSome skip (if mask.getLsbD 0 && (lookup skip a.toNat).isNone then m.write a b else m) (a + 1) rest (mask >>> 1)

/-- `n` bytes from `a` as the engine sees them: each is the byte it has read already, where `early` lists one, else the byte
that the memory holds now (R35: each byte is read once). -/
def memSeen (early m : Memory) (a : Word) : Nat → List Byte
  | 0 => []
  | n + 1 => (lookup early a.toNat).getD (m.read a) :: memSeen early m (a + 1) n

/-- `LoadBlock(a)` (R31) where some of the bytes have been read already. -/
def loadSeen (early m : Memory) (a : Word) : Pair := pairOfBytes (memSeen early m a 8)

/-- All eight bytes of the block at `a` are listed. -/
def listsBlock (m : Memory) (a : Word) : Bool :=
  (List.range 8).all fun i => (lookup m (a + BitVec.ofNat 32 i).toNat).isSome

/-! ### Registers -/

/-- The pair `N1`, `N2` (R11). -/
def State.pair (s : State) : Pair := (s.n1, s.n2)

/-- Both halves written simultaneously (R7, R80). -/
def State.setPair (s : State) (p : Pair) : State := { s with n1 := p.1, n2 := p.2 }

/-- `K[i]` (R10). -/
def State.key (s : State) (i : KeyIndex) : Word := s.k[i]

/-- `K[i] <- v` (R115). -/
def State.setKey (s : State) (i : KeyIndex) (v : Word) : State := { s with k := s.k.set i v }

/-- `STATUS.BUSY` (R13), the same bit as `PHASE` (R15). -/
def State.busy (s : State) : Bool := s.phase == .run

/-! ### Errors: the engine's exceptions -/

/-- The three errors (60_exceptions.md R131). -/
inductive ErrorKind where
  | illegalCmd
  | busyWrite
  | range
  deriving DecidableEq, Repr

/-- The code of an error as `ERRCODE` holds it (R131). -/
def ErrorKind.code : ErrorKind → BitVec 4
  | .illegalCmd => 0x1
  | .busyWrite => 0x2
  | .range => 0x3

/-- `raise E(code)` (R136): `ERR` is set, `ERRCODE` takes the code only if `ERR` was 0, and nothing else changes: control
goes nowhere (R130). -/
def State.raise (s : State) (e : ErrorKind) : State :=
  { s with err := true, errCode := if s.err then s.errCode else e.code }

/-- The way back from an error (R137): `ERR` and `ERRCODE` become 0. -/
def State.clearError (s : State) : State := { s with err := false, errCode := 0 }

end Sys2Proof.Machine
end

