-- ==== Sys2Proof/Machine/Operands.lean ====
section
/-! DEFINITION. The operand forms: the implicit operands of the commands (30_encoding.md R48), the buffer's geometry
(43_simple_replacement.md R100, R105) and the window an operation owns (20_memory.md R30, R38). -/

namespace Sys2Proof.Machine

/-- Whether an operation works on the buffer (R48, R118 step 2). -/
def usesBuffer : Opcode → Bool
  | .encode => true
  | .decode => true
  | .encb => false
  | .decb => false
  | .round => false
  | .subst => false
  | .add32 => false
  | .addm1 => false

/-- The direction that is part of the opcode (R48): 1 for DECB and DECODE, else 0 (R118). -/
def directionOf : Opcode → Direction
  | .decb => .decrypt
  | .decode => .decrypt
  | .encb => .encrypt
  | .encode => .encrypt
  | .round => .encrypt
  | .subst => .encrypt
  | .add32 => .encrypt
  | .addm1 => .encrypt

/-- `nblk` = floor(`BUF_LEN` / 8), as the 29-bit `BUF_LEN >> 3` (R100, R118). -/
def State.blockCount (s : State) : BitVec 29 := (s.bufLen >>> 3).setWidth 29

/-- `BUF_ADDR + BUF_LEN > 2^32`, the sum unbounded (R105). -/
def State.rangeExceeded (s : State) : Bool := 2 ^ 32 < s.bufAddr.toNat + s.bufLen.toNat

/-- Whether an address lies in `[BUF_ADDR, BUF_ADDR + 8*floor(BUF_LEN/8))` (R30, R35). -/
def State.inWindow (s : State) (a : Word) : Bool :=
  s.bufAddr.toNat ≤ a.toNat && a.toNat < s.bufAddr.toNat + 8 * (s.bufLen.toNat / 8)

/-- An ENCODE or DECODE is in progress (R38). -/
def State.bufferBusy (s : State) : Bool :=
  s.busy && (match s.opc with | some op => usesBuffer op | none => false)

/-- The addresses the engine owns now: the window, while an ENCODE or DECODE is in progress (R38). -/
def State.owns (s : State) (a : Word) : Bool := s.bufferBusy && s.inWindow a

/-- The engine owns the address and, in the reference order, has not stored its block yet: the `CNT` blocks from `PTR` on
(10_state.md R15, R36). -/
def State.unfinished (s : State) (a : Word) : Bool :=
  s.owns a && s.ptr.toNat ≤ a.toNat && a.toNat < s.ptr.toNat + 8 * s.cnt.toNat

end Sys2Proof.Machine
end

