-- ==== Sys2Proof/Machine/Flags.lean ====
section
/-! DEFINITION. The only flags the engine has, `BUSY`, `DONE`, `ERR` and `ERRCODE` (10_state.md R13, R18): the word a read
sees, the write-1-to-clear write, and what acceptance and completion do to them. No arithmetic flag exists (R18). -/

namespace Sys2Proof.Machine

/-- `STATUS` as read (44_host_transactions.md R117): `zext_32(ERRCODE || 0 || ERR || DONE || BUSY)`. -/
def State.statusWord (s : State) : Word :=
  (s.errCode ++ (0 : BitVec 1) ++ BitVec.ofBool s.err ++ BitVec.ofBool s.done ++ BitVec.ofBool s.busy).setWidth 32

/-- `WR STATUS, m` (R120): bit 1 clears `DONE`, bit 2 clears `ERR` and `ERRCODE` (R137); all other bits are ignored. -/
def State.writeStatus (s : State) (m : Word) : State :=
  { s with
    done := s.done && !m.getLsbD 1
    err := if m.getLsbD 2 then s.clearError.err else s.err
    errCode := if m.getLsbD 2 then s.clearError.errCode else s.errCode }

/-- The three level outputs (R123, R124). -/
structure Outputs where
  busy : Bool
  done : Bool
  err : Bool
  deriving DecidableEq, Repr

/-- The outputs mirror the three `STATUS` bits at all times (R124). -/
def State.outputs (s : State) : Outputs := ⟨s.busy, s.done, s.err⟩

/-- Acceptance of a command (R118 step 3), all writes simultaneous. `ERR` and `ERRCODE` are not changed. Nothing of the new
operation's window has been accessed yet (20_memory.md R36). -/
def State.accept (s : State) (c : Command) : State :=
  { s with
    opc := some c.op
    ksel := c.kidx
    dir := directionOf c.op
    rc := 0
    bph := .load
    ptr := s.bufAddr
    cnt := s.blockCount
    readEarly := []
    storedEarly := []
    done := false
    phase := .run }

/-- Completion of an operation (R119). -/
def State.complete (s : State) : State := { s with phase := .idle, done := true }

/-- The check of a decoded command (R118, R135): busy first, then the range of ENCODE and DECODE. -/
def commandError (c : Command) (s : State) : Option ErrorKind :=
  if s.busy then some .busyWrite
  else if usesBuffer c.op && s.rangeExceeded then some .range
  else none

/-- A decoded command is offered: it is turned away with an error (R132 to R136) or accepted, and then `run` is what
follows (R118). -/
def State.offer (s : State) (c : Command) (run : State → State) : State :=
  match commandError c s with
  | some e => s.raise e
  | none => run (s.accept c)

end Sys2Proof.Machine
end

