-- ==== Sys2Proof/Machine/Primitives.lean ====
section
/-! DEFINITION. The combinational units (40_primitives.md R60 to R68) and the operations that expose them: SUBST, ADD32,
ADDM1. Functions whose names end in `With` take the tables as an argument; the engine's are those at `Config.sbox`. -/

namespace Sys2Proof.Machine

/-- One byte through its pair of tables (R61): low nibble through table 0, high nibble through table 1. -/
def substituteByte (T : SboxTables) (j : Fin 4) (b : Byte) : Byte :=
  T j 1 (b.extractLsb' 4 4) ++ T j 0 (b.extractLsb' 0 4)

/-- `substitute(w)` (R61): byte `j` of the result is byte `j` of `w` through pair `j`. -/
def substituteWith (T : SboxTables) (w : Word) : Word :=
  substituteByte T 3 (byteOf w 3) ++ substituteByte T 2 (byteOf w 2) ++ substituteByte T 1 (byteOf w 1)
    ++ substituteByte T 0 (byteOf w 0)

/-- The engine's `substitute` (R21, R61). -/
def substitute (w : Word) : Word := substituteWith Config.sbox w

/-- The packed 64-bit word of one table (R62): entry `x` at bits `4x+3:4x`. -/
def packTable (table : Nibble → Nibble) : BitVec 64 :=
  (List.range 16).foldr (fun x p => p ||| ((table (BitVec.ofNat 4 x)).setWidth 64 <<< (4 * x))) 0

/-- `extract_A(P, x)` (R62): direct right shift, then mask. -/
def extractA (p : BitVec 64) (x : Nibble) : BitVec 64 := (p >>> (4 * x.toNat)) &&& 0xF

/-- `extract_B(P, x)` (R62): left shift dropping the high bits, then right shift by 60. -/
def extractB (p : BitVec 64) (x : Nibble) : BitVec 64 := (p <<< (60 - 4 * x.toNat)) >>> 60

/-- `add_mod32` (R64): the carry out of bit 31 is discarded. -/
def addMod32 (a b : Word) : Word := a + b

/-- `add_mod32_minus1` (R65, 90_conflicts.md C2): add with carry-in 1, and take the 1 back unless the carry came out. -/
def addMod32Minus1 (a b : Word) : Word :=
  let c := a + b + 1
  if 2 ^ 32 ≤ a.toNat + b.toNat + 1 then c else c - 1

/-- `xor32` (R66). -/
def xor32 (a b : Word) : Word := a ^^^ b

/-- `xor64` (R66): a primitive of the source that no rule applies. -/
def xor64 (a b : BitVec 64) : BitVec 64 := a ^^^ b

/-- `rotl32(x, n)` for `0 < n < 32` (R7, R67). -/
def rotl32 (x : Word) (n : Nat) : Word := (x <<< n) ||| (x >>> (32 - n))

/-- What SUBST does to the registers (R70). -/
def opSubst (s : State) : State := { s with n1 := substitute s.n1 }

/-- What ADD32 does to the registers (R71). -/
def opAdd32 (s : State) : State := { s with n1 := addMod32 s.n1 s.n2 }

/-- What ADDM1 does to the registers (R72). -/
def opAddm1 (s : State) : State := { s with n1 := addMod32Minus1 s.n1 s.n2 }

/-- `SUBST` (R70), big-step: offered, and if accepted carried out and completed. -/
def execSubst (s : State) : Host.Outcome State Fault Refusal :=
  .next (s.offer ⟨.subst, 0⟩ fun a => (opSubst a).complete)

/-- `ADD32` (R71), big-step. -/
def execAdd32 (s : State) : Host.Outcome State Fault Refusal :=
  .next (s.offer ⟨.add32, 0⟩ fun a => (opAdd32 a).complete)

/-- `ADDM1` (R72), big-step. -/
def execAddm1 (s : State) : Host.Outcome State Fault Refusal :=
  .next (s.offer ⟨.addm1, 0⟩ fun a => (opAddm1 a).complete)

end Sys2Proof.Machine
end

