-- ==== Sys2Proof/Machine/Rounds.lean ====
section
/-! DEFINITION. The round function and the key schedule (41_round_keyschedule.md R80 to R85) and the operation ROUND. -/

namespace Sys2Proof.Machine

/-- `f(K, k, x)` = `rotl32(substitute(add_mod32(K[k], x)), 11)` (R80). -/
def mixWith (T : SboxTables) (key : Key) (k : KeyIndex) (x : Word) : Word :=
  rotl32 (substituteWith T (addMod32 key[k] x)) Config.rotation

/-- `round(K, k, N1, N2)` (R80): `N1'` = mixed, `N2'` = the old `N1`. -/
def roundWith (T : SboxTables) (key : Key) (k : KeyIndex) (p : Pair) : Pair :=
  (xor32 p.2 (mixWith T key k p.1), p.1)

/-- `swap(a, b)` = `(b, a)` (R81). -/
def swapPair (p : Pair) : Pair := (p.2, p.1)

/-- The subkey index of a forward pass, `i mod 8` (R83). -/
def forwardIndex (i : Nat) : KeyIndex := Fin.ofNat 8 i

/-- The subkey index of a reverse pass, `7 - (i mod 8)` (R83). -/
def reverseIndex (i : Nat) : KeyIndex := Fin.ofNat 8 (7 - i % 8)

/-- `sched(d, i)` (R83): encrypt is forward for 24 rounds and then reverse, decrypt forward for 8 and then reverse. -/
def sched (d : Direction) (i : Nat) : KeyIndex :=
  match d with
  | .encrypt => if i < 24 then forwardIndex i else reverseIndex i
  | .decrypt => if i < 8 then forwardIndex i else reverseIndex i

/-- The subkey multiplexer's select in bit terms (R85): `i[2:0]` when the pass is forward, its complement when it is
reverse. -/
def schedBits (d : Direction) (i : BitVec 5) : BitVec 3 :=
  let pass : BitVec 2 := i.extractLsb' 3 2
  let reverse : Bool :=
    match d with
    | .encrypt => pass == 3
    | .decrypt => pass != 0
  if reverse then ~~~(i.extractLsb' 0 3) else i.extractLsb' 0 3

/-- What ROUND k does to the registers (R82), both halves at once. -/
def opRound (k : KeyIndex) (s : State) : State := s.setPair (roundWith Config.sbox s.k k s.pair)

/-- `ROUND k` (R82), big-step. -/
def execRound (k : KeyIndex) (s : State) : Host.Outcome State Fault Refusal :=
  .next (s.offer ⟨.round, k⟩ fun a => (opRound k a).complete)

end Sys2Proof.Machine
end

