-- ==== Sys2Proof/Machine/BlockCore.lean ====
section
/-! DEFINITION. The 32-round block core (42_block_core.md R90 to R97) and the operations ENCB and DECB. -/

namespace Sys2Proof.Machine

/-- The first `n` rounds of a block, rounds `0, 1, ..., n-1` in this order (R90). -/
def roundsWith (T : SboxTables) (key : Key) (d : Direction) : Nat → Pair → Pair
  | 0, p => p
  | n + 1, p => roundWith T key (sched d n) (roundsWith T key d n p)

/-- `crypt(K, d, N1, N2)` (R90): 32 rounds and the final swap. -/
def cryptWith (T : SboxTables) (key : Key) (d : Direction) (p : Pair) : Pair :=
  swapPair (roundsWith T key d Config.numRounds p)

/-- The engine's `crypt` (R90), at its own tables. -/
def crypt (key : Key) (d : Direction) (p : Pair) : Pair := cryptWith Config.sbox key d p

/-- What ENCB and DECB leave in an accepted state (R93, R94): the transformed pair, and `RC` = 32, where the sequencer of
R92 stops. The direction is the latched `DIR`. -/
def opCrypt (s : State) : State := { s.setPair (crypt s.k s.dir s.pair) with rc := 32 }

/-- `ENCB` (R93), big-step. -/
def execEncb (s : State) : Host.Outcome State Fault Refusal :=
  .next (s.offer ⟨.encb, 0⟩ fun a => (opCrypt a).complete)

/-- `DECB` (R94), big-step. -/
def execDecb (s : State) : Host.Outcome State Fault Refusal :=
  .next (s.offer ⟨.decb, 0⟩ fun a => (opCrypt a).complete)

end Sys2Proof.Machine
end

