-- ==== Sys2Proof/Machine/Buffer.lean ====
section
/-! DEFINITION. Simple replacement mode over the buffer (43_simple_replacement.md R100 to R110) and the operations ENCODE
and DECODE. -/

namespace Sys2Proof.Machine

/-- The address of block `j` of a buffer at `a` (R100). -/
def blockAddr (a : Word) (j : Nat) : Word := a + BitVec.ofNat 32 (8 * j)

/-- One block in place: read, transform, write back (R101). The pair that is left is the block's result. -/
def cryptBlockAt (T : SboxTables) (key : Key) (d : Direction) (a : Word) (m : Memory) : Memory × Pair :=
  let p := cryptWith T key d (loadBlock m a)
  (storeBlock m a p, p)

/-- The first `n` blocks of the buffer at `a`, blocks `0, 1, ..., n-1` in this order, the reference order (R101, R109), and
the pair of the last one (R106); `p` where there is none (R110). -/
def bufferWith (T : SboxTables) (key : Key) (d : Direction) (a : Word) : Nat → Memory → Pair → Memory × Pair
  | 0, m, p => (m, p)
  | n + 1, m, p => cryptBlockAt T key d (blockAddr a n) (bufferWith T key d a n m p).1

/-- What ENCODE and DECODE leave in an accepted state (R101, R102): every full block transformed in place, the last block's
result in the pair (R106), and the sequencer's registers where R103 leaves them. With no full block no memory is
accessed (R110). Where the memory does not answer, the engine stays busy at its first load (R157). -/
def runBuffer (s : State) : State :=
  if s.cnt = 0 then s.complete
  else if s.memReady then
    let r := bufferWith Config.sbox s.k s.dir s.ptr s.cnt.toNat s.mem s.pair
    { s.setPair r.2 with mem := r.1, ptr := blockAddr s.ptr s.cnt.toNat, cnt := 0, rc := 32 }.complete
  else s

/-- `ENCODE` (R101), big-step. -/
def execEncode (s : State) : Host.Outcome State Fault Refusal :=
  .next (s.offer ⟨.encode, 0⟩ runBuffer)

/-- `DECODE` (R102), big-step. -/
def execDecode (s : State) : Host.Outcome State Fault Refusal :=
  .next (s.offer ⟨.decode, 0⟩ runBuffer)

end Sys2Proof.Machine
end

