-- ==== Sys2Proof/Machine/Transactions.lean ====
section
/-! DEFINITION. The host transactions WR and RD (44_host_transactions.md R115 to R120). -/

namespace Sys2Proof.Machine

/-- `WR CTRL, c` while idle (R118): decode, check, accept. What follows acceptance is the engine's (Engine.lean). -/
def offerWord (c : Word) (s : State) : State :=
  match decodeCommand c with
  | .error _ => s.raise .illegalCmd
  | .ok cmd => s.offer cmd id

/-- A write while idle (R115). -/
def writeIdle (slot : Slot) (v : Word) (s : State) : State :=
  match slot with
  | .key i => s.setKey i v
  | .data0 => { s with n1 := v }
  | .data1 => { s with n2 := v }
  | .bufAddr => { s with bufAddr := v }
  | .bufLen => { s with bufLen := v }
  | .ctrl => offerWord v s
  | .status => s.writeStatus v
  | .reservedE => s
  | .reservedF => s

/-- A write while busy (R116): `STATUS` as ever, the reserved slots ignored, every other write dropped and recorded. -/
def writeBusy (slot : Slot) (v : Word) (s : State) : State :=
  match slot with
  | .key _ => s.raise .busyWrite
  | .data0 => s.raise .busyWrite
  | .data1 => s.raise .busyWrite
  | .bufAddr => s.raise .busyWrite
  | .bufLen => s.raise .busyWrite
  | .ctrl => s.raise .busyWrite
  | .status => s.writeStatus v
  | .reservedE => s
  | .reservedF => s

/-- What a read returns (R117): the pair is hidden while busy, `CTRL` and the reserved slots read 0. -/
def readSlot (s : State) (slot : Slot) : Word :=
  match slot with
  | .key i => s.key i
  | .data0 => if s.busy then 0 else s.n1
  | .data1 => if s.busy then 0 else s.n2
  | .bufAddr => s.bufAddr
  | .bufLen => s.bufLen
  | .ctrl => 0
  | .status => s.statusWord
  | .reservedE => 0
  | .reservedF => 0

/-- `WR slot, v` (R115, R116, R118, R120). -/
def execWr (slot : Slot) (v : Word) (s : State) : Host.Outcome State Fault Refusal :=
  .next (if s.busy then writeBusy slot v s else writeIdle slot v s)

/-- `RD slot` (R117): the value goes to the host, no engine state changes. -/
def execRd (slot : Slot) (s : State) : Host.Outcome State Fault Refusal :=
  .next { s with rdata := readSlot s slot }

end Sys2Proof.Machine
end

