-- ==== Sys2Proof/Machine/Dispatch.lean ====
section
/-! DEFINITION. One arm per constructor of `Instr`, in the order of spec/opcode_table.json. -/

namespace Sys2Proof.Machine

def exec (i : Instr) (s : State) : Host.Outcome State Fault Refusal :=
  match i with
  | .encb => Sys2Proof.Machine.execEncb s
  | .decb => Sys2Proof.Machine.execDecb s
  | .encode => Sys2Proof.Machine.execEncode s
  | .decode => Sys2Proof.Machine.execDecode s
  | .round k => Sys2Proof.Machine.execRound k s
  | .subst => Sys2Proof.Machine.execSubst s
  | .add32 => Sys2Proof.Machine.execAdd32 s
  | .addm1 => Sys2Proof.Machine.execAddm1 s
  | .wr slot v => Sys2Proof.Machine.execWr slot v s
  | .rd slot => Sys2Proof.Machine.execRd slot s

end Sys2Proof.Machine
end

