-- ==== Sys2Proof/Machine/Engine.lean ====
section
/-! DEFINITION. The reference sequencer, one engine step at a time (42_block_core.md R92, 43_simple_replacement.md R103,
44_host_transactions.md R118, R119, R121). An operation accepted through `WR CTRL` proceeds by these steps. -/

namespace Sys2Proof.Machine

/-- One round of the block in progress (R92, R103). -/
def roundStep (s : State) : State :=
  { s.setPair (roundWith Config.sbox s.k (sched s.dir s.rc.toNat) s.pair) with rc := s.rc + 1 }

/-- One engine step of ENCB or DECB (R92). -/
def blockCoreStep (s : State) : State :=
  if s.rc < 32 then roundStep s else (s.setPair (swapPair s.pair)).complete

/-- One engine step of ENCODE or DECODE (R103). A load or a store waits until the memory answers (R157). Bytes that were read or
stored early are not accessed again (20_memory.md R35); there are none unless R38 was broken. -/
def bufferStep (s : State) : State :=
  match s.bph with
  | .load =>
    if s.cnt = 0 then s.complete
    else if s.memReady then { s.setPair (loadSeen s.readEarly s.mem s.ptr) with rc := 0, bph := .rounds }
    else s
  | .rounds =>
    if s.rc < 32 then roundStep s
    else { s.setPair (swapPair s.pair) with bph := .store }
  | .store =>
    if s.memReady then
      { s with
        mem := storeSome s.storedEarly s.mem s.ptr (blockBytes s.pair) (BitVec.allOnes 8)
        ptr := s.ptr + 8
        cnt := s.cnt - 1
        bph := .load }
    else s

/-- One engine step of the operation `op` (R118: ROUND, SUBST, ADD32 and ADDM1 take one step, which completes). -/
def operationStep (op : Opcode) (s : State) : State :=
  match op with
  | .encb => blockCoreStep s
  | .decb => blockCoreStep s
  | .encode => bufferStep s
  | .decode => bufferStep s
  | .round => (opRound s.ksel s).complete
  | .subst => (opSubst s).complete
  | .add32 => (opAdd32 s).complete
  | .addm1 => (opAddm1 s).complete

/-- The engine's step (R121): enabled exactly while busy. Busy with no operation is a state no run reaches; the model lets
nothing happen there (log entry 14). -/
def engineStep (s : State) : State :=
  if s.busy then
    match s.opc with
    | some op => operationStep op s
    | none => s
  else s

/-- `n` engine steps with nothing between them. -/
def engineSteps : Nat → State → State
  | 0, s => s
  | n + 1, s => engineSteps n (engineStep s)

/-- A block access that the engine requests on its master port: the eight bytes from `addr` (44_host_transactions.md R123,
20_memory.md R35). -/
structure BlockAccess where
  write : Bool
  addr : Word
  deriving DecidableEq, Repr

/-- The access the engine's next step needs: only ENCODE and DECODE access memory (R30), a load of the block at `PTR` or a
store to it (R103); none otherwise. -/
def State.request (s : State) : Option BlockAccess :=
  if s.bufferBusy then
    match s.bph with
    | .load => if s.cnt = 0 then none else some ⟨false, s.ptr⟩
    | .rounds => none
    | .store => some ⟨true, s.ptr⟩
  else none

/-- The number of engine steps from acceptance to completion (R97, R158). -/
def stepCount (op : Opcode) (nblk : Nat) : Nat :=
  match op with
  | .encb => 33
  | .decb => 33
  | .encode => 1 + 35 * nblk
  | .decode => 1 + 35 * nblk
  | .round => 1
  | .subst => 1
  | .add32 => 1
  | .addm1 => 1

end Sys2Proof.Machine
end

