-- ==== Sys2Proof/Machine/Events.lean ====
section
/-! DEFINITION. What one step of the whole machine does: the next thing the outside world does, or else the engine's next
step (44_host_transactions.md R121, 70_reset_and_hazards.md R150, R151). -/

namespace Sys2Proof.Machine

/-- A command word that is no legal command is offered: `BUSY_WRITE` while busy, where the word is not decoded at all
(60_exceptions.md R133), else `ILLEGAL_CMD` (R132). -/
def rejectWord (s : State) : State := s.raise (if s.busy then .busyWrite else .illegalCmd)

/-- The host presents a form (30_encoding.md R45): what it decodes to is executed. -/
def presentForm (f : Form) (s : State) : Host.Outcome State Fault Refusal :=
  match decode f with
  | .ok i => exec i s
  | .error _ => .next (rejectWord s)

/-- Whether a block's store may have begun: an ENCODE or DECODE is in progress and its phase is `STORE` (R151). -/
def storePending (s : State) : Bool := s.bufferBusy && s.bph == .store

/-- The buffer memory as reset leaves it (R150, R151): untouched, but for a block whose store may have begun, of which any
bytes may be new. -/
def memoryAfterReset (s : State) : Memory :=
  if storePending s then storeSome s.storedEarly s.mem s.ptr (blockBytes s.pair) (Config.storedBytes s.freeIdx)
  else s.mem

/-- A clock edge with `rst` = 1 (R150): every piece of engine state takes its reset value (R20); what is not the engine's
stays. -/
def resetEngine (s : State) : State :=
  { State.reset with
    rdata := s.rdata
    mem := memoryAfterReset s
    memReady := s.memReady
    inputs := s.inputs
    freeIdx := s.freeIdx + 1 }

/-- The block in hand when it is done: the rest of its rounds and the final swap (R103), or the pair itself once they are
behind. -/
def finishBlock (s : State) : Pair := if s.bph = .rounds then (engineSteps (33 - s.rc.toNat) s).pair else s.pair

/-- The address of the unfinished block that holds `a` (43_simple_replacement.md R100). -/
def State.blockOf (s : State) (a : Word) : Word := blockAddr s.ptr ((a.toNat - s.ptr.toNat) / 8)

/-- The block at `base` has been read in the reference order and not stored yet (R103). -/
def State.inHand (s : State) (base : Word) : Bool := base == s.ptr && s.bph != .load

/-- What the engine will store to the unfinished block at `base` if it reads now what it has not read yet: the transform of
the bytes it has read (20_memory.md R36, U6). -/
def State.blockResult (s : State) (base : Word) : Pair :=
  if s.inHand base then finishBlock s else crypt s.k s.dir (loadSeen s.readEarly s.mem base)

/-- How far the engine may be ahead of the reference order at the block at `base`, whose accesses R36 does not order against
those to other blocks: it has read any further bytes of it, as a free value says, and, once it has read all eight, has
stored any further bytes of it, as another says (R35: every byte is read once and then stored once, all reads before any
store). DESIGN CHOICE, safe: this holds whatever `memReady` is, even if the memory has not answered since acceptance, a
combination outside the premises of U6 and U8 at once that the spec does not treat (R42, 70_reset_and_hazards.md R157);
that nothing was accessed is among the values of the masks. Log entry 17. -/
def workAhead (base : Word) (s : State) : State :=
  let seen :=
    if s.inHand base then s.readEarly
    else storeSome s.readEarly s.readEarly base (memRead s.mem base 8) (Config.readBytes s.freeIdx)
  let stored : BitVec 8 := if s.inHand base || listsBlock seen base then Config.storedBytes s.freeIdx else 0
  let bytes := blockBytes (s.blockResult base)
  { s with
    mem := storeSome s.storedEarly s.mem base bytes stored
    readEarly := seen
    storedEarly := storeSome s.storedEarly s.storedEarly base bytes stored
    freeIdx := s.freeIdx + 1 }

/-- Another agent writes a byte of the buffer memory. The write is done and the engine goes on: it does not detect a write
that breaks R38 (70_reset_and_hazards.md R155). Into a block that is not finished such a write may come before or after any
access of the engine that R35 and R36 leave unordered (U6, log entry 8). -/
def writeByOther (a : Word) (b : Byte) (s : State) : State :=
  let t := if s.unfinished a then workAhead (s.blockOf a) s else s
  { t with mem := t.mem.write a b }

/-- One input, already taken off the list. -/
def takeInput (i : Input) (s : State) : Host.Outcome State Fault Refusal :=
  match i with
  | .present f => presentForm f s
  | .engine => .next (engineStep s)
  | .reset => .next (resetEngine s)
  | .memWrite a b => .next (writeByOther a b s)
  | .memReady r => .next { s with memReady := r }

/-- One step: the first input if there is one (a transaction before an engine step, R123), else the engine's step; an idle
engine with no input keeps all its state (R141). -/
def runNext (s : State) : Host.Outcome State Fault Refusal :=
  match s.inputs with
  | [] => .next (engineStep s)
  | i :: rest => takeInput i { s with inputs := rest }

/-- `s` with an opcode-table row's instruction as the very next thing the host presents. -/
def withForm (s : State) (nbits w : Nat) : State :=
  match formOfTable nbits w with
  | .ok f => { s with inputs := .present f :: s.inputs }
  | .error _ => s

end Sys2Proof.Machine
end

