-- ==== Sys2Proof/Machine/Step.lean ====
section
/-! DEFINITION. The step of the machine and the host's way to place an instruction. -/

namespace Sys2Proof.Machine

/-- One step of the machine (44_host_transactions.md R121). -/
def step (s : State) : Host.Outcome State Fault Refusal := runNext s

/-- `s` with the instruction of an opcode-table row placed where `step` takes its next instruction: at the head of
`inputs`. Nothing is fetched from memory (10_state.md R17). Log entry 2. -/
def State.withFetchWord (s : State) (nbits w : Nat) : State := withForm s nbits w

end Sys2Proof.Machine
end

