-- ==== Sys2Proof/Machine/Script.lean ====
section
/-! DEFINITION. The script notation for host programs and its pseudo-operations (30_encoding.md R52, R53), as lists of
inputs. It is the spec's notation, not the engine's. -/

namespace Sys2Proof.Machine

/-- One transaction of a script line (R52). -/
def transact (i : Instr) : Input := .present (encode i)

/-- `CMD mnemonic`: the command word written to `CTRL` (R52). -/
def scriptCmd (c : Command) : List Input := [transact (.wr .ctrl c.word)]

/-- `LDKEY k0, ..., k7`: eight writes, ascending slot (R53). -/
def scriptLdkey (key : Key) : List Input :=
  [transact (.wr (.key 0) key[0]), transact (.wr (.key 1) key[1]), transact (.wr (.key 2) key[2]),
   transact (.wr (.key 3) key[3]), transact (.wr (.key 4) key[4]), transact (.wr (.key 5) key[5]),
   transact (.wr (.key 6) key[6]), transact (.wr (.key 7) key[7])]

/-- `LDPAIR n1, n2` (R53). -/
def scriptLdpair (p : Pair) : List Input := [transact (.wr .data0 p.1), transact (.wr .data1 p.2)]

/-- `LDBLK b0 ... b7` (R53). -/
def scriptLdblk (b : List Byte) : List Input := scriptLdpair (pairOfBytes b)

/-- `SETBUF a, len` (R53). -/
def scriptSetbuf (a len : Word) : List Input := [transact (.wr .bufAddr a), transact (.wr .bufLen len)]

/-- `ACK` (R53). -/
def scriptAck : List Input := [transact (.wr .status 0x00000006)]

/-- `WAIT` (R53) of a host whose reads of `STATUS` leave the engine `n` steps before the last of them. -/
def scriptWait (n : Nat) : List Input := List.replicate n .engine ++ [transact (.rd .status)]

/-- `RUN mnemonic` (R53) with the engine's steps inside its `WAIT` written out. -/
def scriptRun (c : Command) (n : Nat) : List Input := scriptCmd c ++ scriptWait n

/-- `RUN mnemonic` (R53) as one input: the format C item. -/
def scriptRunWhole (c : Command) : List Input := [.present (.command c.word)]

/-- `ENCRYPT_BLOCK` (R53), on the block held in `DATA0`, `DATA1`. -/
def scriptEncryptBlock : List Input := scriptRunWhole ⟨.encb, 0⟩

/-- `DECRYPT_BLOCK` (R53). -/
def scriptDecryptBlock : List Input := scriptRunWhole ⟨.decb, 0⟩

/-- `ENCODE_BUF a, len` (R53). -/
def scriptEncodeBuf (a len : Word) : List Input := scriptSetbuf a len ++ scriptRunWhole ⟨.encode, 0⟩

/-- `DECODE_BUF a, len` (R53). -/
def scriptDecodeBuf (a len : Word) : List Input := scriptSetbuf a len ++ scriptRunWhole ⟨.decode, 0⟩

end Sys2Proof.Machine
end

