-- ==== Sys2Proof/Safety.lean ====
section
/-! DEFINITION. What counts as a proper state and as a safe step, in the terms the statements use. -/

namespace Sys2Proof

open Sys2Proof.Machine

/-- What holds of the sequencer while an ENCODE or DECODE is in progress (43_simple_replacement.md R103, R105, 10_state.md
R17): the range check has passed, `CNT` blocks are left, and `PTR` is the address of the current one. -/
structure BufferInv (s : State) : Prop where
  inRange : s.rangeExceeded = false
  blocksLeft : s.cnt.toNat ≤ s.bufLen.toNat / 8
  pointer : s.ptr = blockAddr s.bufAddr (s.bufLen.toNat / 8 - s.cnt.toNat)
  storeAfterRounds : s.bph = .store → s.rc = 32
  /-- what was read or stored early lies in the window (20_memory.md R35) -/
  earlyInWindow : ∀ a : Word, (lookup s.readEarly a.toNat).isSome = true ∨ (lookup s.storedEarly a.toNat).isSome = true →
    s.inWindow a = true

/-- The invariant of the machine: what every state that a run reaches satisfies. -/
structure Inv (s : State) : Prop where
  /-- the memory is in canonical form -/
  memCanonical : s.mem.wf = true
  /-- and so are the lists of the bytes accessed early -/
  earlyCanonical : s.readEarly.wf = true ∧ s.storedEarly.wf = true
  /-- `BUSY` and `DONE` are never both 1 (10_state.md R13) -/
  busyNotDone : s.busy = true → s.done = false
  /-- `ERRCODE` is 0 exactly when `ERR` is 0 (R13, 60_exceptions.md R131) -/
  codeIffError : s.errCode = 0 ↔ s.err = false
  /-- codes 4 to 15 are never produced (R131) -/
  codeAssigned : s.errCode.toNat ≤ 3
  /-- `RC` never exceeds 32 (R17) -/
  roundsAtMost32 : s.rc.toNat ≤ 32
  /-- while busy an operation is latched (R15) -/
  busyHasOperation : s.busy = true → s.opc.isSome = true
  /-- `DIR` is the direction of the latched opcode (R15, 44_host_transactions.md R118) -/
  directionLatched : s.dir = (match s.opc with | some op => directionOf op | none => .encrypt)
  /-- only ROUND has a subkey index (30_encoding.md R46) -/
  subkeyOnlyForRound : s.opc ≠ some .round → s.ksel = 0
  /-- past the load phase a block of a running buffer operation is being worked on (R103) -/
  blockInProgress : s.bph ≠ .load → s.bufferBusy = true ∧ 0 < s.cnt.toNat
  /-- the sequencer of a running buffer operation (R103) -/
  buffer : s.bufferBusy = true → BufferInv s

/-- The ownership premise 20_memory.md R38 for the next step: no other agent is about to write into the window that the
engine owns. The engine does not check it (70_reset_and_hazards.md R155). -/
def Exclusive (s : State) : Prop :=
  ∀ a b rest, s.inputs = .memWrite a b :: rest → s.owns a = false

/-- A step that goes on. -/
def SafeStep (s : State) : Prop := ∃ t, step s = .next t

/-- "Protocol flags" and "protocol errors", which every rule of an operation refers to (40_primitives.md): the instruction `i`
with command word `c`, offered while idle, raises `BUSY` and lowers `DONE` at acceptance, lowers `BUSY` and raises `DONE` at
completion and touches no other flag; offered while busy it is `BUSY_WRITE` and nothing else changes; a word that is not
legal is `ILLEGAL_CMD`. -/
def ProtocolHolds (c : Word) (i : Instr) (s : State) : Prop :=
  (s.phase = .idle →
    (∃ a, exec (.wr .ctrl c) s = .next a ∧
      a.phase = .run ∧ a.done = false ∧ a.err = s.err ∧ a.errCode = s.errCode) ∧
    (∃ t, exec i s = .next t ∧
      t.phase = .idle ∧ t.done = true ∧ t.err = s.err ∧ t.errCode = s.errCode)) ∧
  (s.phase = .run →
    exec i s = .next { s with err := true, errCode := if s.err then s.errCode else 0x2 } ∧
    exec (.wr .ctrl c) s = .next { s with err := true, errCode := if s.err then s.errCode else 0x2 }) ∧
  (s.phase = .idle → ∀ w, legalWord w = false →
    exec (.wr .ctrl w) s = .next { s with err := true, errCode := if s.err then s.errCode else 0x1 })

/-- `s` with the hidden sequencing registers of `t`, which no host can read (10_state.md R15), and with the model's record of
what was accessed early: for statements that leave open what an operation leaves in them. -/
def withSequencerOf (s t : State) : State :=
  { s with
    opc := t.opc, ksel := t.ksel, dir := t.dir, rc := t.rc, bph := t.bph, ptr := t.ptr, cnt := t.cnt,
    readEarly := t.readEarly, storedEarly := t.storedEarly }

/-- What an accepted and completed buffer operation of direction `d` has done to `s` (43_simple_replacement.md R101, R104,
R106): every full block is transformed in place, every byte outside the window is as before, the pair holds the last
block's result, and of the other state only `DONE` and the hidden sequencing registers have moved. -/
def BufferResult (d : Direction) (s t : State) : Prop :=
  (∀ j, j < s.bufLen.toNat / 8 →
    loadBlock t.mem (blockAddr s.bufAddr j) = crypt s.k d (loadBlock s.mem (blockAddr s.bufAddr j))) ∧
  (∀ a, s.inWindow a = false → t.mem.read a = s.mem.read a) ∧
  t.pair = (if s.bufLen.toNat / 8 = 0 then s.pair
    else crypt s.k d (loadBlock s.mem (blockAddr s.bufAddr (s.bufLen.toNat / 8 - 1)))) ∧
  t = withSequencerOf { s with n1 := t.n1, n2 := t.n2, mem := t.mem, done := true } t

/-- `n` steps of the machine, stopping at the first fault or refusal. -/
def runSteps : Nat → State → Host.Outcome State Fault Refusal
  | 0, s => .next s
  | n + 1, s =>
    match step s with
    | .next t => runSteps n t
    | .fault f => .fault f
    | .refused r => .refused r

/-- Instructions executed one after another, stopping at the first fault or refusal: for statements about a sequence of
operations (30_encoding.md R53 `RUN`, 42_block_core.md R82). -/
def execAll : List Instr → State → Host.Outcome State Fault Refusal
  | [], s => .next s
  | i :: rest, s =>
    match exec i s with
    | .next t => execAll rest t
    | .fault f => .fault f
    | .refused r => .refused r

/-- The identity tables `T_ID` (95_test_vectors.md), a stand-in that the spec names. -/
def tablesId : SboxTables := fun _ _ x => x

/-- The all-zero tables `T_ZERO` (95_test_vectors.md). -/
def tablesZero : SboxTables := fun _ _ _ => 0

end Sys2Proof
end

