-- ==== Sys2Proof/Certificates/Slice0/Obligations.lean ====
section
/-! DEFINITION. The statements for the provers, each with the rule of spec/ it formalises. -/

open Sys2Proof Sys2Proof.Machine

/-! ### Encoding (30_encoding.md) -/

/-- Decoding the encoding of an instruction gives the instruction back, for every instruction and every operand (R45 to
R50). -/
def Obligations.DecodeOfEncode : Prop :=
  ∀ i : Instr, i.wellFormed = true ∧ decode (encode i) = .ok i

/-- Whatever decodes is the encoding of what it decodes to; only the ignored data bits of a read are lost (R45). -/
def Obligations.EncodeOfDecode : Prop :=
  ∀ (f : Form) (i : Instr), decode f = .ok i →
    encode i = f ∨
      ∃ (slot : Slot) (t : BitVec 37), i = .rd slot ∧ f = .transaction t ∧
        encode i = .transaction (t &&& 0x1F00000000)

/-- R46, R49 and R132: a word decodes exactly when it is legal, exactly 15 words are legal, and writing any other word
to `CTRL` while idle records `ILLEGAL_CMD` and changes no other state. -/
def Obligations.ExactlyFifteenLegalWords : Prop :=
  ∀ c : Word,
    ((∃ cmd, decodeCommand c = .ok cmd) ↔
      (zeroField c = 0 ∧ (1 ≤ (opField c).toNat ∧ (opField c).toNat ≤ 8) ∧ (opField c = 5 ∨ kidxField c = 0))) ∧
    ((∃ cmd, decodeCommand c = .ok cmd) ↔
      c ∈ [0x01, 0x02, 0x03, 0x04, 0x05, 0x15, 0x25, 0x35, 0x45, 0x55, 0x65, 0x75, 0x06, 0x07, (0x08 : Word)]) ∧
    (c ∉ [0x01, 0x02, 0x03, 0x04, 0x05, 0x15, 0x25, 0x35, 0x45, 0x55, 0x65, 0x75, 0x06, 0x07, (0x08 : Word)] →
      ∀ s : State, s.phase = .idle →
        exec (.wr .ctrl c) s = .next { s with err := true, errCode := if s.err then s.errCode else 0x1 })

/-- R47 and R48: a word selects a row of the opcode map when `c & mask == match`, and ROUND's operand is
`zext(c[6:4])`. -/
def Obligations.OpcodeMapByMaskAndMatch : Prop :=
  ∀ c : Word,
    (decode (.command c) = .ok .encb ↔ c &&& 0xFFFFFFFF = 0x00000001) ∧
    (decode (.command c) = .ok .decb ↔ c &&& 0xFFFFFFFF = 0x00000002) ∧
    (decode (.command c) = .ok .encode ↔ c &&& 0xFFFFFFFF = 0x00000003) ∧
    (decode (.command c) = .ok .decode ↔ c &&& 0xFFFFFFFF = 0x00000004) ∧
    (∀ k, decode (.command c) = .ok (.round k) ↔
      (c &&& 0xFFFFFF8F = 0x00000005 ∧ k.val = (c.extractLsb' 4 3).toNat)) ∧
    (decode (.command c) = .ok .subst ↔ c &&& 0xFFFFFFFF = 0x00000006) ∧
    (decode (.command c) = .ok .add32 ↔ c &&& 0xFFFFFFFF = 0x00000007) ∧
    (decode (.command c) = .ok .addm1 ↔ c &&& 0xFFFFFFFF = 0x00000008)

/-- R45 format T with the slot numbers of R19: every triple `we || addr || wdata` is a write or a read of the slot that
`addr` numbers, and the 16 slot numbers and the 16 slots correspond. -/
def Obligations.EveryTripleIsATransaction : Prop :=
  (∀ (addr : BitVec 4) (wdata : Word),
    decode (.transaction ((1 : BitVec 1) ++ addr ++ wdata)) = .ok (.wr (Slot.ofNumber addr) wdata) ∧
    decode (.transaction ((0 : BitVec 1) ++ addr ++ wdata)) = .ok (.rd (Slot.ofNumber addr))) ∧
  (∀ addr : BitVec 4, (Slot.ofNumber addr).number = addr) ∧
  (∀ slot : Slot, Slot.ofNumber slot.number = slot)

/-- A few words written out bit by bit (R45, R47; 95_test_vectors.md V13): sanity. -/
def Obligations.WrittenOutWordsDecode : Prop :=
  decode (.command 0b00000000000000000000000000000001) = .ok .encb ∧
  decode (.command 0b00000000000000000000000000000100) = .ok .decode ∧
  decode (.command 0b00000000000000000000000001100101) = .ok (.round 6) ∧
  decode (.command 0b00000000000000000000000000001000) = .ok .addm1 ∧
  decode (.command 0b00000000000000000000000000010110) = .error .kidxNotZero ∧
  decode (.command 0b00000000000000000000000010000000) = .error .zeroFieldSet ∧
  decode (.command 0b00000000000000000000000000010000) = .error .opcodeUnassigned ∧
  decode (.transaction 0b1100001001000011001010110110001101100) = .ok (.wr .data0 0x48656C6C) ∧
  decode (.transaction 0b0110100000000000000000000000000000000) = .ok (.rd .status)

/-! ### Primitives (40_primitives.md) -/

/-- R61: byte `j` of `substitute(w)` is byte `j` of `w`, its high nibble through table 1 and its low nibble through
table 0 of pair `j`, for every table set; with the identity tables `substitute(w)` = `w`. The form by nibbles (nibble
`n` through table `n & 1` of pair `n >> 1`, and through nothing else) is the spec's inference from it. -/
def Obligations.SubstituteMapsEachNibble : Prop :=
  (∀ (T : SboxTables) (w : Word) (j : Fin 4),
    (substituteWith T w).extractLsb' (8 * j.val) 8 =
      T j 1 (w.extractLsb' (8 * j.val + 4) 4) ++ T j 0 (w.extractLsb' (8 * j.val) 4)) ∧
  (∀ (T : SboxTables) (w : Word) (n : Fin 8),
    (substituteWith T w).extractLsb' (4 * n.val) 4 =
      T ⟨n.val / 2, by omega⟩ ⟨n.val % 2, by omega⟩ (w.extractLsb' (4 * n.val) 4)) ∧
  (∀ w : Word, substituteWith tablesId w = w)

/-- The law of R62, which the spec derives from the two shifts: the two extraction strategies give the same entry for
every packed word and index, and a packed table gives its own entries back. -/
def Obligations.ExtractionStrategiesAgree : Prop :=
  (∀ (P : BitVec 64) (x : Nibble),
    extractA P x = extractB P x ∧ extractA P x = (P.extractLsb' (4 * x.toNat) 4).setWidth 64) ∧
  (∀ (table : Nibble → Nibble) (x : Nibble),
    (packTable table).extractLsb' (4 * x.toNat) 4 = table x)

/-- R64: `add_mod32` is the sum mod 2^32; commutative, associative, 0 neutral, and 0xFFFFFFFF + 1 = 0. -/
def Obligations.AddModTwoToThe32 : Prop :=
  (∀ a b : Word, (addMod32 a b).toNat = (a.toNat + b.toNat) % 2 ^ 32) ∧
  (∀ a b : Word, addMod32 a b = addMod32 b a) ∧
  (∀ a b c : Word, addMod32 (addMod32 a b) c = addMod32 a (addMod32 b c)) ∧
  (∀ a : Word, addMod32 a 0 = a) ∧
  addMod32 0xFFFFFFFF 1 = 0

/-- R65: the addition with carry-in 1, the closed form of `add_mod32_minus1`, its congruence, where it is 0 and where
0xFFFFFFFF, commutativity, and the source's edge cases. -/
def Obligations.AddModTwoToThe32MinusOne : Prop :=
  (∀ a b : Word,
    addMod32Minus1 a b = (if 0xFFFFFFFF - a.toNat ≤ b.toNat then a + b + 1 else a + b + 1 - 1) ∧
    (a.toNat + b.toNat ≤ 0xFFFFFFFE → (addMod32Minus1 a b).toNat = a.toNat + b.toNat) ∧
    (0xFFFFFFFF ≤ a.toNat + b.toNat → (addMod32Minus1 a b).toNat = a.toNat + b.toNat - 0xFFFFFFFF) ∧
    (addMod32Minus1 a b).toNat % (2 ^ 32 - 1) = (a.toNat + b.toNat) % (2 ^ 32 - 1) ∧
    (addMod32Minus1 a b = 0 ↔ (a.toNat + b.toNat = 0 ∨ a.toNat + b.toNat = 0xFFFFFFFF)) ∧
    (addMod32Minus1 a b = 0xFFFFFFFF ↔ (a = 0xFFFFFFFF ∧ b = 0xFFFFFFFF)) ∧
    addMod32Minus1 a b = addMod32Minus1 b a ∧
    addMod32Minus1 a 0 = (if a = 0xFFFFFFFF then 0 else a)) ∧
  addMod32Minus1 0xFFFFFFFF 3 = 3 ∧ addMod32Minus1 0xFFFFFFFF 0 = 0 ∧ addMod32Minus1 1 14 = 15

/-- R67: bit `i` of `x` goes to bit `(i + 11) mod 32`, and `rotl32(x, 11)` = `x[20:0] || x[31:21]`. -/
def Obligations.RotationByEleven : Prop :=
  (∀ (x : Word) (i : Nat), i < 32 → (rotl32 x 11).getLsbD ((i + 11) % 32) = x.getLsbD i) ∧
  (∀ x : Word, rotl32 x 11 = x.extractLsb' 0 21 ++ x.extractLsb' 21 11) ∧
  rotl32 0x00100000 11 = 0x80000000 ∧ rotl32 0x00200000 11 = 0x00000001

/-- R70: SUBST while idle applies the network to `N1` and raises `DONE`, and moves nothing but the flags and the sequencer
beside it; the protocol flags and errors are as for every command. The corner cases and examples of the rule hold. -/
def Obligations.SubstCompletes : Prop :=
  (∀ s : State, s.phase = .idle →
    ∃ t, exec .subst s = .next t ∧ t = withSequencerOf { s with n1 := substitute s.n1, done := true } t) ∧
  (∀ s : State, ProtocolHolds 0x00000006 .subst s) ∧
  decode (.command 0x00000006) = .ok .subst ∧
  (∀ w : Word, substituteWith tablesId w = w) ∧
  substituteWith tablesId 0x01829732 = 0x01829732 ∧ substituteWith tablesZero 0x01829732 = 0

/-- R71: ADD32 while idle adds `N2` to `N1` mod 2^32; the protocol flags and errors are as for every command. The corner
cases and the example of the rule hold. -/
def Obligations.Add32Completes : Prop :=
  (∀ s : State, s.phase = .idle →
    ∃ t, exec .add32 s = .next t ∧ t = withSequencerOf { s with n1 := s.n1 + s.n2, done := true } t) ∧
  (∀ s : State, ProtocolHolds 0x00000007 .add32 s) ∧
  decode (.command 0x00000007) = .ok .add32 ∧
  addMod32 0xFFFFFFFF 1 = 0 ∧ (∀ a : Word, addMod32 a 0 = a) ∧ addMod32 0x80000000 0x80000000 = 0 ∧
  addMod32 0x00000123 0x48656C6C = 0x48656D8F

/-- R72: ADDM1 while idle adds `N2` to `N1` mod 2^32-1 (the sum `s` if `s <= 0xFFFFFFFE`, else `s - 0xFFFFFFFF`); the
protocol flags and errors are as for every command. The corner cases and the example of the rule hold. -/
def Obligations.Addm1Completes : Prop :=
  (∀ s : State, s.phase = .idle →
    ∃ t, exec .addm1 s = .next t ∧
      t = withSequencerOf { s with
        n1 := if s.n1.toNat + s.n2.toNat ≤ 0xFFFFFFFE then s.n1 + s.n2 else s.n1 + s.n2 + 1, done := true } t) ∧
  (∀ s : State, ProtocolHolds 0x00000008 .addm1 s) ∧
  decode (.command 0x00000008) = .ok .addm1 ∧
  addMod32Minus1 0xFFFFFFFF 3 = 3 ∧ addMod32Minus1 0xFFFFFFFF 0 = 0 ∧ addMod32Minus1 1 14 = 15 ∧
  addMod32Minus1 0xFFFFFFFF 0xFFFFFFFF = 0xFFFFFFFF ∧ addMod32Minus1 0xFFFFFFFE 1 = 0 ∧ addMod32Minus1 0 0 = 0 ∧
  addMod32Minus1 0x00000001 0x0000000E = 0x0000000F

/-! ### Round and schedule (41_round_keyschedule.md) -/

/-- ROUND k while idle replaces the pair by `(N2 xor rotl11(substitute(K[k] + N1)), N1)`, both at once; the protocol
flags and errors are as for every command; the rule's example holds (R80, R82). -/
def Obligations.RoundCompletes : Prop :=
  (∀ (k : KeyIndex) (s : State),
    (s.phase = .idle →
      ∃ t, exec (.round k) s = .next t ∧
        t = withSequencerOf { s with
          n1 := s.n2 ^^^ rotl32 (substitute (s.k[k] + s.n1)) 11, n2 := s.n1, done := true } t) ∧
    ProtocolHolds (0x00000005 + 16 * BitVec.ofNat 32 k.val) (.round k) s ∧
    decode (.command (0x00000005 + 16 * BitVec.ofNat 32 k.val)) = .ok (.round k)) ∧
  roundWith tablesId #v[0x00000123, 0, 0, 0, 0, 0, 0, 0] 0 (0x48656C6C, 0x6F20776F) = (0x444C0D2C, 0x48656C6C)

/-- A round can be undone whatever the tables are; it is a bijection on pairs; a round, a swap and the same round give the
swapped starting pair (R81, which the spec derives from R80). -/
def Obligations.RoundIsUndone : Prop :=
  ∀ (T : SboxTables) (key : Key) (k : KeyIndex),
    (∀ p : Pair,
      p.1 = (roundWith T key k p).2 ∧
      p.2 = (roundWith T key k p).1 ^^^ mixWith T key k (roundWith T key k p).2 ∧
      roundWith T key k (swapPair (roundWith T key k p)) = swapPair p) ∧
    Function.Bijective (roundWith T key k)

/-- R83: the key schedule by its ranges. The mirror law (R84) and the bit view (R85) are the spec's inferences from it. -/
def Obligations.KeyScheduleRangesMirrorBits : Prop :=
  (∀ i : Nat, i ≤ 23 → (sched .encrypt i).val = i % 8) ∧
  (∀ i : Nat, 24 ≤ i → i ≤ 31 → (sched .encrypt i).val = 7 - i % 8) ∧
  (∀ i : Nat, i ≤ 7 → (sched .decrypt i).val = i % 8) ∧
  (∀ i : Nat, 8 ≤ i → i ≤ 31 → (sched .decrypt i).val = 7 - i % 8) ∧
  (∀ i : Nat, i ≤ 31 → sched .decrypt i = sched .encrypt (31 - i)) ∧
  (∀ (d : Direction) (i : Nat), i ≤ 31 → (sched d i).val = (schedBits d (BitVec.ofNat 5 i)).toNat)

/-! ### Block core (42_block_core.md) -/

/-- R91, which the spec derives from R90: 31 exchanging rounds and a last round that leaves the halves where they are. -/
def Obligations.LastRoundDoesNotExchange : Prop :=
  ∀ (T : SboxTables) (key : Key) (d : Direction) (p : Pair),
    cryptWith T key d p =
      ((roundsWith T key d 31 p).1,
        (roundsWith T key d 31 p).2 ^^^ mixWith T key (sched d 31) (roundsWith T key d 31 p).1)

/-- R93: ENCB while idle leaves `crypt(K, 0, N1, N2)` in the pair; the protocol flags and errors are as for every command;
with all-zero tables the halves are exchanged; the rule's example holds. -/
def Obligations.EncbCompletes : Prop :=
  (∀ s : State, s.phase = .idle →
    ∃ t, exec .encb s = .next t ∧
      t = withSequencerOf { s with
        n1 := (crypt s.k .encrypt (s.n1, s.n2)).1, n2 := (crypt s.k .encrypt (s.n1, s.n2)).2, done := true } t) ∧
  (∀ s : State, ProtocolHolds 0x00000001 .encb s) ∧
  decode (.command 0x00000001) = .ok .encb ∧
  (∀ (key : Key) (p : Pair), cryptWith tablesZero key .encrypt p = (p.2, p.1)) ∧
  cryptWith tablesId #v[0x0123, 0x4567, 0x89AB, 0xCDEF, 0x0123, 0x4567, 0x89AB, 0xCDEF] .encrypt (0x48656C6C, 0x6F20776F)
    = (0x13991184, 0x42109FA4)

/-- R94: DECB while idle leaves `crypt(K, 1, N1, N2)` in the pair; the protocol flags and errors are as for every command;
with eight equal key words it computes the same function as ENCB; the rule's example holds. -/
def Obligations.DecbCompletes : Prop :=
  (∀ s : State, s.phase = .idle →
    ∃ t, exec .decb s = .next t ∧
      t = withSequencerOf { s with
        n1 := (crypt s.k .decrypt (s.n1, s.n2)).1, n2 := (crypt s.k .decrypt (s.n1, s.n2)).2, done := true } t) ∧
  (∀ s : State, ProtocolHolds 0x00000002 .decb s) ∧
  decode (.command 0x00000002) = .ok .decb ∧
  (∀ (T : SboxTables) (key : Key) (v : Word), (∀ i : KeyIndex, key[i] = v) →
    ∀ p : Pair, cryptWith T key .decrypt p = cryptWith T key .encrypt p) ∧
  cryptWith tablesId #v[0x0123, 0x4567, 0x89AB, 0xCDEF, 0x0123, 0x4567, 0x89AB, 0xCDEF] .decrypt (0x13991184, 0x42109FA4)
    = (0x48656C6C, 0x6F20776F)

/-- For every key, every pair and every choice of tables, each of encryption and decryption undoes the other (R95, which
the spec derives from R81, R84 and R90). -/
def Obligations.DecryptionInvertsEncryption : Prop :=
  ∀ (T : SboxTables) (key : Key) (p : Pair),
    cryptWith T key .decrypt (cryptWith T key .encrypt p) = p ∧
    cryptWith T key .encrypt (cryptWith T key .decrypt p) = p

/-- Thirty-two ROUND commands with the subkeys of the encrypt schedule leave the pair that ENCB would leave with its
halves exchanged, and the same for the decrypt schedule and DECB (41_round_keyschedule.md R82, 90_conflicts.md C4). -/
def Obligations.ThirtyTwoRoundsAgainstOneBlock : Prop :=
  ∀ s : State, s.phase = .idle →
    (∃ t u, execAll ((List.range 32).map fun i => .round (sched .encrypt i)) s = .next t ∧
      exec .encb s = .next u ∧ t.pair = (u.n2, u.n1)) ∧
    (∃ t u, execAll ((List.range 32).map fun i => .round (sched .decrypt i)) s = .next t ∧
      exec .decb s = .next u ∧ t.pair = (u.n2, u.n1))

/-! ### Buffer (20_memory.md, 43_simple_replacement.md) -/

/-- R31: a block is big-endian in memory, byte by byte, loading what was stored gives it back, and the rule's
example holds, at any address, aligned or not. -/
def Obligations.BlocksAreBigEndian : Prop :=
  ∀ (m : Memory) (a : Word) (p : Pair),
    (storeBlock m a p).read a = p.1.extractLsb' 24 8 ∧
    (storeBlock m a p).read (a + 1) = p.1.extractLsb' 16 8 ∧
    (storeBlock m a p).read (a + 2) = p.1.extractLsb' 8 8 ∧
    (storeBlock m a p).read (a + 3) = p.1.extractLsb' 0 8 ∧
    (storeBlock m a p).read (a + 4) = p.2.extractLsb' 24 8 ∧
    (storeBlock m a p).read (a + 5) = p.2.extractLsb' 16 8 ∧
    (storeBlock m a p).read (a + 6) = p.2.extractLsb' 8 8 ∧
    (storeBlock m a p).read (a + 7) = p.2.extractLsb' 0 8 ∧
    loadBlock m a =
      (m.read a ++ m.read (a + 1) ++ m.read (a + 2) ++ m.read (a + 3),
        m.read (a + 4) ++ m.read (a + 5) ++ m.read (a + 6) ++ m.read (a + 7)) ∧
    loadBlock (storeBlock m a p) a = p ∧
    loadBlock (memWrite m a [0x48, 0x65, 0x6C, 0x6C, 0x6F, 0x20, 0x77, 0x6F]) a = (0x48656C6C, 0x6F20776F)

/-- R101, R104 and R106: ENCODE while idle, with the buffer in range and the memory answering (or no full block): it
completes, every full block is encrypted in place, the remainder and every other byte are as before, the pair holds the
last block's result, and nothing but the flags and the sequencer moves beside it. Out of range it is `RANGE`, while busy
`BUSY_WRITE`, and an illegal word `ILLEGAL_CMD`. The rule's example holds. -/
def Obligations.EncodeTransformsTheWindow : Prop :=
  (∀ s : State, s.phase = .idle → s.bufAddr.toNat + s.bufLen.toNat ≤ 2 ^ 32 →
    (s.memReady = true ∨ s.bufLen.toNat < 8) →
    ∃ t, exec .encode s = .next t ∧ BufferResult .encrypt s t) ∧
  (∀ s : State, s.phase = .idle → 2 ^ 32 < s.bufAddr.toNat + s.bufLen.toNat →
    exec .encode s = .next { s with err := true, errCode := if s.err then s.errCode else 0x3 }) ∧
  (∀ s : State, s.bufAddr.toNat + s.bufLen.toNat ≤ 2 ^ 32 → (s.memReady = true ∨ s.bufLen.toNat < 8) →
    ProtocolHolds 0x00000003 .encode s) ∧
  decode (.command 0x00000003) = .ok .encode ∧
  memRead (bufferWith tablesId #v[0x0123, 0x4567, 0x89AB, 0xCDEF, 0x0123, 0x4567, 0x89AB, 0xCDEF] .encrypt 0x1000 2
      (memWrite [] 0x1000
        [0x48, 0x65, 0x6C, 0x6C, 0x6F, 0x20, 0x77, 0x6F, 0x72, 0x6C, 0x64, 0x2C, 0x20, 0x74, 0x68, 0x69, 0x73, 0x20, 0x69])
      (0, 0)).1 0x1000 19 =
    [0x13, 0x99, 0x11, 0x84, 0x42, 0x10, 0x9F, 0xA4, 0x4C, 0x80, 0x5D, 0x88, 0x98, 0x8F, 0x06, 0x47, 0x73, 0x20, 0x69]

/-- R102: DECODE, as ENCODE with the decrypt schedule; the rule's example holds. -/
def Obligations.DecodeTransformsTheWindow : Prop :=
  (∀ s : State, s.phase = .idle → s.bufAddr.toNat + s.bufLen.toNat ≤ 2 ^ 32 →
    (s.memReady = true ∨ s.bufLen.toNat < 8) →
    ∃ t, exec .decode s = .next t ∧ BufferResult .decrypt s t) ∧
  (∀ s : State, s.phase = .idle → 2 ^ 32 < s.bufAddr.toNat + s.bufLen.toNat →
    exec .decode s = .next { s with err := true, errCode := if s.err then s.errCode else 0x3 }) ∧
  (∀ s : State, s.bufAddr.toNat + s.bufLen.toNat ≤ 2 ^ 32 → (s.memReady = true ∨ s.bufLen.toNat < 8) →
    ProtocolHolds 0x00000004 .decode s) ∧
  decode (.command 0x00000004) = .ok .decode ∧
  memRead (bufferWith tablesId #v[0x0123, 0x4567, 0x89AB, 0xCDEF, 0x0123, 0x4567, 0x89AB, 0xCDEF] .decrypt 0x1000 2
      (memWrite [] 0x1000
        [0x13, 0x99, 0x11, 0x84, 0x42, 0x10, 0x9F, 0xA4, 0x4C, 0x80, 0x5D, 0x88, 0x98, 0x8F, 0x06, 0x47, 0x73, 0x20, 0x69])
      (0, 0)).1 0x1000 19 =
    [0x48, 0x65, 0x6C, 0x6C, 0x6F, 0x20, 0x77, 0x6F, 0x72, 0x6C, 0x64, 0x2C, 0x20, 0x74, 0x68, 0x69, 0x73, 0x20, 0x69]

/-- R105 and R134: a buffer that would pass the top of the address space is refused with `RANGE`, whichever way the
command comes, and nothing else changes; any other, up to one that ends exactly at the top, is accepted, and none of its
block addresses wraps. -/
def Obligations.RangeIsCheckedAtTheCommand : Prop :=
  ∀ s : State, s.phase = .idle →
    (2 ^ 32 < s.bufAddr.toNat + s.bufLen.toNat →
      ∀ i, i = .encode ∨ i = .decode ∨ i = .wr .ctrl 0x00000003 ∨ i = .wr .ctrl 0x00000004 →
        exec i s = .next { s with err := true, errCode := if s.err then s.errCode else 0x3 }) ∧
    (s.bufAddr.toNat + s.bufLen.toNat ≤ 2 ^ 32 →
      (∃ a, exec (.wr .ctrl 0x00000003) s = .next a ∧
        a = withSequencerOf { s with phase := .run, done := false } a ∧ a.opc = some .encode) ∧
      (∃ a, exec (.wr .ctrl 0x00000004) s = .next a ∧
        a = withSequencerOf { s with phase := .run, done := false } a ∧ a.opc = some .decode) ∧
      ∀ j i, j < s.bufLen.toNat / 8 → i < 8 →
        (blockAddr s.bufAddr j + BitVec.ofNat 32 i).toNat = s.bufAddr.toNat + 8 * j + i)

/-- With no full block ENCODE and DECODE are accepted and complete normally in one engine step that requests no memory
access, with the pair unchanged (R110, which the spec derives from R101). What the hidden sequencing registers hold
afterwards is left open. -/
def Obligations.NoFullBlockCompletes : Prop :=
  ∀ s : State, s.phase = .idle → s.bufAddr.toNat + s.bufLen.toNat ≤ 2 ^ 32 → s.bufLen.toNat < 8 →
    (∃ t, exec .encode s = .next t ∧ t = withSequencerOf { s with done := true } t) ∧
    (∃ t, exec .decode s = .next t ∧ t = withSequencerOf { s with done := true } t) ∧
    (∃ a, exec (.wr .ctrl 0x00000003) s = .next a ∧ a.request = none ∧
      engineStep a = withSequencerOf { s with done := true } (engineStep a)) ∧
    (∃ a, exec (.wr .ctrl 0x00000004) s = .next a ∧ a.request = none ∧
      engineStep a = withSequencerOf { s with done := true } (engineStep a))

/-- R107: the new value of a block is a function of the key and of its old value alone; equal blocks under equal keys give
equal blocks, in whatever buffers, places and states. -/
def Obligations.EqualBlocksGiveEqualBlocks : Prop :=
  ∀ (i : Instr) (s₁ s₂ t₁ t₂ : State) (j₁ j₂ : Nat),
    i = .encode ∨ i = .decode →
    s₁.phase = .idle → s₂.phase = .idle → s₁.memReady = true → s₂.memReady = true →
    s₁.bufAddr.toNat + s₁.bufLen.toNat ≤ 2 ^ 32 → s₂.bufAddr.toNat + s₂.bufLen.toNat ≤ 2 ^ 32 →
    exec i s₁ = .next t₁ → exec i s₂ = .next t₂ →
    j₁ < s₁.bufLen.toNat / 8 → j₂ < s₂.bufLen.toNat / 8 →
    s₁.k = s₂.k →
    loadBlock s₁.mem (blockAddr s₁.bufAddr j₁) = loadBlock s₂.mem (blockAddr s₂.bufAddr j₂) →
    loadBlock t₁.mem (blockAddr s₁.bufAddr j₁) = loadBlock t₂.mem (blockAddr s₂.bufAddr j₂)

/-- R108, which the spec derives from R95, R101 and R104: ENCODE and then DECODE restores every byte of the memory, and
so does DECODE and then ENCODE, for any key, any buffer in range and any length; and ENCODE of one block gives the eight
bytes that loading them with LDBLK, running ENCB and reading the pair back big-endian gives. -/
def Obligations.BufferRoundTrip : Prop :=
  (∀ s : State, s.phase = .idle → s.bufAddr.toNat + s.bufLen.toNat ≤ 2 ^ 32 → s.memReady = true →
    (∃ t, execAll [.encode, .decode] s = .next t ∧ ∀ a, t.mem.read a = s.mem.read a) ∧
    (∃ t, execAll [.decode, .encode] s = .next t ∧ ∀ a, t.mem.read a = s.mem.read a)) ∧
  (∀ s : State, s.phase = .idle → s.memReady = true → s.bufLen = 8 → s.bufAddr.toNat + 8 ≤ 2 ^ 32 →
    ∃ t u, exec .encode s = .next t ∧
      execAll [.wr .data0 (loadBlock s.mem s.bufAddr).1, .wr .data1 (loadBlock s.mem s.bufAddr).2, .encb] s = .next u ∧
      memRead t.mem s.bufAddr 8 = bytesBe u.n1 ++ bytesBe u.n2)

/-! ### Host transactions (44_host_transactions.md) -/

/-- R115: what a write does while idle, slot by slot; what offering a command word does is R118
(`CommandIsAccepted`). -/
def Obligations.WriteWhileIdle : Prop :=
  ∀ (s : State) (v : Word), s.phase = .idle →
    (∀ i : KeyIndex, ∃ key : Key, exec (.wr (.key i) v) s = .next { s with k := key } ∧
      key[i] = v ∧ ∀ j : KeyIndex, j ≠ i → key[j] = s.k[j]) ∧
    exec (.wr .data0 v) s = .next { s with n1 := v } ∧
    exec (.wr .data1 v) s = .next { s with n2 := v } ∧
    exec (.wr .bufAddr v) s = .next { s with bufAddr := v } ∧
    exec (.wr .bufLen v) s = .next { s with bufLen := v } ∧
    exec (.wr .ctrl v) s = .next (offerWord v s) ∧
    exec (.wr .status v) s = .next { s with
      done := if v.getLsbD 1 then false else s.done, err := if v.getLsbD 2 then false else s.err,
      errCode := if v.getLsbD 2 then 0 else s.errCode } ∧
    exec (.wr .reservedE v) s = .next s ∧
    exec (.wr .reservedF v) s = .next s

/-- R116 and R133: while busy every write to slots 0x0 to 0xC is dropped and recorded as `BUSY_WRITE`, even an illegal
command word; writes to 0xE and 0xF do nothing; a `STATUS` write acts as ever. -/
def Obligations.WriteWhileBusy : Prop :=
  ∀ (s : State) (slot : Slot) (v : Word), s.phase = .run →
    (slot.number.toNat ≤ 0xC →
      exec (.wr slot v) s = .next { s with err := true, errCode := if s.err then s.errCode else 0x2 }) ∧
    (slot.number = 0xE ∨ slot.number = 0xF → exec (.wr slot v) s = .next s) ∧
    (slot.number = 0xD → exec (.wr slot v) s = .next { s with
      done := if v.getLsbD 1 then false else s.done, err := if v.getLsbD 2 then false else s.err,
      errCode := if v.getLsbD 2 then 0 else s.errCode })

/-- R120 and R51: a `STATUS` write clears `DONE` by bit 1, `ERR` and `ERRCODE` by bit 2, idle or busy, and ignores every
other bit. -/
def Obligations.StatusWriteClears : Prop :=
  ∀ (s : State) (m : Word),
    exec (.wr .status m) s = .next { s with
      done := if m.getLsbD 1 then false else s.done, err := if m.getLsbD 2 then false else s.err,
      errCode := if m.getLsbD 2 then 0 else s.errCode }

/-- R117: what a read returns, slot by slot, and that it changes nothing but the value handed to the host. -/
def Obligations.ReadReturnsTheSlot : Prop :=
  ∀ (s : State) (slot : Slot), ∃ v : Word,
    exec (.rd slot) s = .next { s with rdata := v } ∧
    (∀ i, slot = .key i → v = s.k[i]) ∧
    (slot = .data0 → v = if s.phase = .idle then s.n1 else 0) ∧
    (slot = .data1 → v = if s.phase = .idle then s.n2 else 0) ∧
    (slot = .bufAddr → v = s.bufAddr) ∧
    (slot = .bufLen → v = s.bufLen) ∧
    (slot = .ctrl → v = 0) ∧
    (slot = .status →
      v.getLsbD 0 = decide (s.phase = .run) ∧ v.getLsbD 1 = s.done ∧ v.getLsbD 2 = s.err ∧ v.getLsbD 3 = false ∧
      v.extractLsb' 4 4 = s.errCode ∧ v.extractLsb' 8 24 = 0) ∧
    (slot = .reservedE → v = 0) ∧
    (slot = .reservedF → v = 0)

/-- R118: a command word written to `CTRL` while idle: an illegal one is `ILLEGAL_CMD`, a legal ENCODE or DECODE out of
range is `RANGE`, any other is accepted; then ROUND, SUBST, ADD32 and ADDM1 take one engine step that performs the
pseudocode of their rules and completes, and the others proceed by the sequencers. -/
def Obligations.CommandIsAccepted : Prop :=
  ∀ (s : State) (c : Word), s.phase = .idle →
    (legalWord c = false →
      exec (.wr .ctrl c) s = .next { s with err := true, errCode := if s.err then s.errCode else 0x1 }) ∧
    (∀ cmd : Command, decodeCommand c = .ok cmd →
      ((cmd.op = .encode ∨ cmd.op = .decode) → 2 ^ 32 < s.bufAddr.toNat + s.bufLen.toNat →
        exec (.wr .ctrl c) s = .next { s with err := true, errCode := if s.err then s.errCode else 0x3 }) ∧
      (((cmd.op = .encode ∨ cmd.op = .decode) → s.bufAddr.toNat + s.bufLen.toNat ≤ 2 ^ 32) →
        ∃ a, exec (.wr .ctrl c) s = .next a ∧
          a = { s with
            opc := some cmd.op, ksel := cmd.kidx,
            dir := if cmd.op = .decb ∨ cmd.op = .decode then .decrypt else .encrypt,
            rc := 0, bph := .load, ptr := s.bufAddr, cnt := BitVec.ofNat 29 (s.bufLen.toNat / 8),
            readEarly := a.readEarly, storedEarly := a.storedEarly, phase := .run, done := false } ∧
          (cmd.op = .round → engineStep a = { a with
            n1 := s.n2 ^^^ rotl32 (substitute (s.k[cmd.kidx] + s.n1)) 11, n2 := s.n1, phase := .idle, done := true }) ∧
          (cmd.op = .subst → engineStep a = { a with n1 := substitute s.n1, phase := .idle, done := true }) ∧
          (cmd.op = .add32 → engineStep a = { a with n1 := addMod32 s.n1 s.n2, phase := .idle, done := true }) ∧
          (cmd.op = .addm1 → engineStep a = { a with n1 := addMod32Minus1 s.n1 s.n2, phase := .idle, done := true }) ∧
          (cmd.op = .encb ∨ cmd.op = .decb → engineStep a = blockCoreStep a) ∧
          (cmd.op = .encode ∨ cmd.op = .decode → engineStep a = bufferStep a)))

/-- R119: the engine step that ends an operation sets `DONE` with it, and until then `DONE` keeps its value; no engine
step starts an operation or touches `ERR`, `ERRCODE`, the key or the buffer registers. -/
def Obligations.EngineStepCompletesWithDone : Prop :=
  ∀ s : State,
    (s.phase = .run → (engineStep s).phase = .idle → (engineStep s).done = true) ∧
    ((engineStep s).phase = s.phase → (engineStep s).done = s.done) ∧
    (s.phase = .idle → engineStep s = s) ∧
    (engineStep s).err = s.err ∧ (engineStep s).errCode = s.errCode ∧ (engineStep s).k = s.k ∧
    (engineStep s).bufAddr = s.bufAddr ∧ (engineStep s).bufLen = s.bufLen

/-- R92, which the spec derives from R90: one engine step of ENCB or DECB, and the 33 of them from acceptance, the last
of which completes with `RC` = 32. -/
def Obligations.BlockCoreSequencer : Prop :=
  ∀ (op : Opcode), op = .encb ∨ op = .decb →
    (∀ s : State, s.phase = .run → s.opc = some op →
      (s.rc.toNat < 32 → engineStep s = { s with
        n1 := (roundWith Config.sbox s.k (sched s.dir s.rc.toNat) (s.n1, s.n2)).1,
        n2 := (roundWith Config.sbox s.k (sched s.dir s.rc.toNat) (s.n1, s.n2)).2, rc := s.rc + 1 }) ∧
      (s.rc = 32 → engineStep s = { s with n1 := s.n2, n2 := s.n1, phase := .idle, done := true })) ∧
    (∀ s : State, (s.accept ⟨op, 0⟩).rc = 0 ∧
      (s.accept ⟨op, 0⟩).dir = (if op = .decb then .decrypt else .encrypt) ∧
      (∀ n, n ≤ 32 → (engineSteps n (s.accept ⟨op, 0⟩)).rc = BitVec.ofNat 6 n ∧
        (engineSteps n (s.accept ⟨op, 0⟩)).phase = .run) ∧
      (engineSteps 33 (s.accept ⟨op, 0⟩)).phase = .idle ∧ (engineSteps 33 (s.accept ⟨op, 0⟩)).done = true ∧
      (engineSteps 33 (s.accept ⟨op, 0⟩)).rc = 32)

/-- One engine step of ENCODE or DECODE, case by case, with the memory answering (R103, which the spec derives from R92
and R101; `UnansweredEngineWaits` for a memory that does not answer). A byte that was read early is not read again and one
that was stored early is not stored again (R35); as long as R38 is kept there are none (log entry 8), and then the load is
of the eight bytes of memory and the store of the eight bytes of the pair. -/
def Obligations.BufferSequencer : Prop :=
  ∀ (s : State) (op : Opcode), op = .encode ∨ op = .decode → s.phase = .run → s.opc = some op → s.memReady = true →
    (s.bph = .load → s.cnt.toNat = 0 → engineStep s = { s with phase := .idle, done := true }) ∧
    (s.bph = .load → 0 < s.cnt.toNat → ∃ b : Nat → Byte,
      (∀ i, i < 8 → b i = (lookup s.readEarly (s.ptr + BitVec.ofNat 32 i).toNat).getD
        (s.mem.read (s.ptr + BitVec.ofNat 32 i))) ∧
      engineStep s = { s with
        n1 := b 0 ++ b 1 ++ b 2 ++ b 3, n2 := b 4 ++ b 5 ++ b 6 ++ b 7, rc := 0, bph := .rounds }) ∧
    (s.bph = .load → 0 < s.cnt.toNat → s.readEarly = [] → engineStep s = { s with
      n1 := s.mem.read s.ptr ++ s.mem.read (s.ptr + 1) ++ s.mem.read (s.ptr + 2) ++ s.mem.read (s.ptr + 3),
      n2 := s.mem.read (s.ptr + 4) ++ s.mem.read (s.ptr + 5) ++ s.mem.read (s.ptr + 6) ++ s.mem.read (s.ptr + 7),
      rc := 0, bph := .rounds }) ∧
    (s.bph = .rounds → s.rc.toNat < 32 → engineStep s = { s with
      n1 := (roundWith Config.sbox s.k (sched s.dir s.rc.toNat) (s.n1, s.n2)).1,
      n2 := (roundWith Config.sbox s.k (sched s.dir s.rc.toNat) (s.n1, s.n2)).2, rc := s.rc + 1 }) ∧
    (s.bph = .rounds → s.rc = 32 → engineStep s = { s with n1 := s.n2, n2 := s.n1, bph := .store }) ∧
    (s.bph = .store → ∃ m : Memory,
      engineStep s = { s with mem := m, ptr := s.ptr + 8, cnt := s.cnt - 1, bph := .load } ∧
      (∀ i, i < 8 → m.read (s.ptr + BitVec.ofNat 32 i) =
        if (lookup s.storedEarly (s.ptr + BitVec.ofNat 32 i).toNat).isSome then s.mem.read (s.ptr + BitVec.ofNat 32 i)
        else (bytesBe s.n1 ++ bytesBe s.n2).getD i 0) ∧
      (∀ a, (∀ i, i < 8 → a ≠ s.ptr + BitVec.ofNat 32 i) → m.read a = s.mem.read a) ∧
      (s.storedEarly = [] → m = memWrite s.mem s.ptr (bytesBe s.n1 ++ bytesBe s.n2)))

/-- The small-step rules R92 and R103 reach the big-step rules (R7): for every legal command, writing it to `CTRL` while
idle accepts it, and the engine steps of R97 (1, 33 or `1 + 35 * nblk`) then give exactly the state that the command's
own meaning answers. That the meaning leaves in the hidden sequencing registers what the sequencer does is the model's
choice (log entry 13), and so is that it stays at the first load where the memory does not answer (log entry 6). -/
def Obligations.SmallStepsReachTheBigStep : Prop :=
  ∀ (s : State) (cmd : Command), cmd.wellFormed = true → s.phase = .idle →
    (cmd.op = .encode ∨ cmd.op = .decode → s.bufAddr.toNat + s.bufLen.toNat ≤ 2 ^ 32) →
    ∃ a, exec (.wr .ctrl cmd.word) s = .next a ∧
      exec cmd.toInstr s = .next (engineSteps (stepCount cmd.op (s.bufLen.toNat / 8)) a)

/-- R97 and R122: with the memory answering, an accepted operation is busy before its last engine step and completed
after it: 1 step for ROUND, SUBST, ADD32, ADDM1, 33 for ENCB and DECB, `1 + 35 * nblk` for ENCODE and DECODE. -/
def Obligations.AcceptedOperationCompletes : Prop :=
  ∀ (s : State) (cmd : Command), s.memReady = true →
    (∀ n, n < stepCount cmd.op (s.bufLen.toNat / 8) → (engineSteps n (s.accept cmd)).phase = .run) ∧
    (engineSteps (stepCount cmd.op (s.bufLen.toNat / 8)) (s.accept cmd)).phase = .idle ∧
    (engineSteps (stepCount cmd.op (s.bufLen.toNat / 8)) (s.accept cmd)).done = true

/-- R121: nothing the host can do while the engine is busy changes the result of the operation in progress: a
transaction then touches `DONE`, `ERR`, `ERRCODE` and the value read only, and after any number of engine steps
everything else is as if it had not happened. -/
def Obligations.HostCannotDisturbTheOperation : Prop :=
  ∀ (s t : State) (i : Instr) (n : Nat), s.phase = .run → exec i s = .next t →
    t = { s with done := t.done, err := t.err, errCode := t.errCode, rdata := t.rdata } ∧
    { engineSteps n t with done := false, err := false, errCode := 0, rdata := 0 } =
      { engineSteps n s with done := false, err := false, errCode := 0, rdata := 0 }

/-- R117 and R153: no read while busy tells anything of the pair, the sequencer or the memory: two busy states that
agree on the key, the buffer registers and `STATUS` answer every read alike. -/
def Obligations.ReadsWhileBusyHideTheWork : Prop :=
  ∀ (s₁ s₂ t₁ t₂ : State) (slot : Slot), s₁.phase = .run → s₂.phase = .run →
    s₁.k = s₂.k → s₁.bufAddr = s₂.bufAddr → s₁.bufLen = s₂.bufLen →
    s₁.done = s₂.done → s₁.err = s₂.err → s₁.errCode = s₂.errCode →
    exec (.rd slot) s₁ = .next t₁ → exec (.rd slot) s₂ = .next t₂ → t₁.rdata = t₂.rdata

/-! ### Errors (60_exceptions.md) -/

/-- R135: one write raises at most one error, by the order busy, legality, range: while busy a write to slots 0x0 to 0xC
is `BUSY_WRITE`, a `CTRL` write whatever the word; while idle an illegal word is `ILLEGAL_CMD` whatever the buffer, and
only a legal ENCODE or DECODE is `RANGE`. -/
def Obligations.ErrorPriority : Prop :=
  ∀ (s : State) (c : Word), s.err = false →
    (s.phase = .run → ∀ (slot : Slot) (v : Word), slot.number.toNat ≤ 0xC →
      exec (.wr slot v) s = .next { s with err := true, errCode := 0x2 }) ∧
    ∃ t, exec (.wr .ctrl c) s = .next t ∧
      (s.phase = .run → t.errCode = 0x2) ∧
      (s.phase = .idle → legalWord c = false → t.errCode = 0x1) ∧
      (s.phase = .idle → (c = 0x00000003 ∨ c = 0x00000004) → 2 ^ 32 < s.bufAddr.toNat + s.bufLen.toNat → t.errCode = 0x3) ∧
      (s.phase = .idle → legalWord c = true → ¬(c = 0x00000003 ∨ c = 0x00000004) → t.err = false ∧ t.errCode = s.errCode)

/-- R136: recording an error sets `ERR` and takes the code if `ERR` was 0, else changes nothing. Once `ERR` is set, no
instruction but a `STATUS` write changes `ERR` or `ERRCODE`, and every instruction (but one that reads or writes `STATUS`
itself) does what it does when `ERR` is clear. The output `err` is `STATUS.ERR`. -/
def Obligations.FirstErrorIsKept : Prop :=
  (∀ (s : State) (e : ErrorKind),
    (s.err = false → s.raise e = { s with err := true, errCode := e.code }) ∧ (s.err = true → s.raise e = s)) ∧
  (∀ (s t : State) (i : Instr), s.err = true → (∀ m, i ≠ .wr .status m) → exec i s = .next t →
    t.err = true ∧ t.errCode = s.errCode ∧
    (i ≠ .rd .status → ∃ u, exec i { s with err := false, errCode := 0 } = .next u ∧
      t = { u with err := true, errCode := s.errCode })) ∧
  (∀ s : State, s.outputs.err = s.err)

/-- R137: a `STATUS` write with bit 2 set and reset clear `ERR` and `ERRCODE`, and nothing else does, whatever step the
machine takes. -/
def Obligations.OnlyStatusWriteOrResetClearsErr : Prop :=
  (∀ s t : State, step s = .next t → s.err = true → t.err = false →
    ∃ rest, s.inputs = .reset :: rest ∨
      ∃ f m, s.inputs = .present f :: rest ∧ decode f = .ok (.wr .status m) ∧ m.getLsbD 2 = true) ∧
  (∀ (s : State) (m : Word), m.getLsbD 2 = true →
    ∃ t, exec (.wr .status m) s = .next t ∧ t.err = false ∧ t.errCode = 0) ∧
  (∀ (s : State) (rest : List Input), s.inputs = .reset :: rest →
    ∃ t, step s = .next t ∧ t.err = false ∧ t.errCode = 0)

/-! ### What an instruction leaves unchanged -/

/-- The frame of the eight commands: whatever they answer, accepted or turned away, the key, the buffer registers, the
host's read value and the outside world are unchanged; SUBST, ADD32 and ADDM1 leave `N2`; all but ENCODE and DECODE
leave every byte of memory; ENCODE and DECODE leave every byte outside the window; a command that is turned away changes
the error record only, and one that is accepted leaves that record alone. -/
def Obligations.CommandFrame : Prop :=
  ∀ (i : Instr) (s t : State), i.command?.isSome = true → exec i s = .next t →
    t.k = s.k ∧ t.bufAddr = s.bufAddr ∧ t.bufLen = s.bufLen ∧ t.rdata = s.rdata ∧ t.memReady = s.memReady ∧
    t.inputs = s.inputs ∧ t.freeIdx = s.freeIdx ∧
    (i = .subst ∨ i = .add32 ∨ i = .addm1 → t.n2 = s.n2) ∧
    (i ≠ .encode → i ≠ .decode → ∀ a, t.mem.read a = s.mem.read a) ∧
    (i = .encode ∨ i = .decode → ∀ a, s.inWindow a = false → t.mem.read a = s.mem.read a) ∧
    ((t.err = s.err ∧ t.errCode = s.errCode) ∨ t = { s with err := t.err, errCode := t.errCode })

/-- The frame of WR and RD: memory and the outside world are unchanged; a write changes no key word but the one its slot
names, `N1` only through `DATA0`, `N2` only through `DATA1`, the buffer registers only through theirs, the sequencer and
`BUSY` only through `CTRL`; a read changes the value read only (R115 to R117). -/
def Obligations.TransactionFrame : Prop :=
  ∀ (slot : Slot) (v : Word) (s t : State), exec (.wr slot v) s = .next t →
    (∀ a, t.mem.read a = s.mem.read a) ∧ t.rdata = s.rdata ∧ t.memReady = s.memReady ∧ t.inputs = s.inputs ∧
    t.freeIdx = s.freeIdx ∧
    (∀ i : KeyIndex, slot ≠ .key i → t.k[i] = s.k[i]) ∧
    (slot ≠ .data0 → t.n1 = s.n1) ∧ (slot ≠ .data1 → t.n2 = s.n2) ∧
    (slot ≠ .bufAddr → t.bufAddr = s.bufAddr) ∧ (slot ≠ .bufLen → t.bufLen = s.bufLen) ∧
    (slot ≠ .ctrl → t.phase = s.phase ∧ t.opc = s.opc ∧ t.ksel = s.ksel ∧ t.dir = s.dir ∧ t.rc = s.rc ∧ t.bph = s.bph ∧
      t.ptr = s.ptr ∧ t.cnt = s.cnt ∧ t.readEarly = s.readEarly ∧ t.storedEarly = s.storedEarly) ∧
    (slot ≠ .ctrl → slot ≠ .status → t.done = s.done) ∧
    (s.phase = .idle → slot ≠ .ctrl → slot ≠ .status → t.err = s.err ∧ t.errCode = s.errCode) ∧
    (∀ u, exec (.rd slot) s = .next u → u = { s with rdata := u.rdata })

/-- R10 and R12: whatever step the machine takes, a key word changes only by a write to its slot while idle or by reset,
and so do the buffer registers: the engine never writes them. -/
def Obligations.OnlyTheHostWritesKeyAndBufferRegisters : Prop :=
  ∀ s t : State, step s = .next t → (∀ rest, s.inputs ≠ .reset :: rest) →
    (∀ i : KeyIndex, t.k[i] ≠ s.k[i] → s.phase = .idle ∧
      ∃ f rest, s.inputs = .present f :: rest ∧ decode f = .ok (.wr (.key i) t.k[i])) ∧
    (t.bufAddr ≠ s.bufAddr → s.phase = .idle ∧
      ∃ f rest, s.inputs = .present f :: rest ∧ decode f = .ok (.wr .bufAddr t.bufAddr)) ∧
    (t.bufLen ≠ s.bufLen → s.phase = .idle ∧
      ∃ f rest, s.inputs = .present f :: rest ∧ decode f = .ok (.wr .bufLen t.bufLen))

/-- R30 and R35: whatever step the machine takes from a proper state, a byte of memory that another agent is not
writing in that very step changes only inside the window, and only by an ENCODE or DECODE. -/
def Obligations.OnlyTheWindowIsWritten : Prop :=
  ∀ (s t : State) (a : Word), Inv s → step s = .next t → (∀ b rest, s.inputs ≠ .memWrite a b :: rest) →
    t.mem.read a ≠ s.mem.read a →
    s.inWindow a = true ∧
      (s.bufferBusy = true ∨
        ∃ f rest, s.inputs = .present f :: rest ∧ (decode f = .ok .encode ∨ decode f = .ok .decode))

/-- R35: every byte the engine requests on its master port lies inside the window of the ENCODE or DECODE in progress,
none of the eight addresses wraps, and an idle engine requests nothing. -/
def Obligations.RequestsStayInsideTheWindow : Prop :=
  ∀ (s : State) (r : BlockAccess), Inv s → s.request = some r →
    s.bufferBusy = true ∧ r.addr.toNat + 8 ≤ 2 ^ 32 ∧
      ∀ i, i < 8 → s.inWindow (r.addr + BitVec.ofNat 32 i) = true

/-- An engine that waits for a memory that does not answer stays where it is, however many steps it is given (R157), and
a command that would need the memory is accepted and stays at its first load (the model's choice for the command's
meaning, log entry 6). -/
def Obligations.UnansweredEngineWaits : Prop :=
  (∀ (s : State) (r : BlockAccess) (n : Nat), s.memReady = false → s.request = some r → engineSteps n s = s) ∧
  (∀ s : State, s.phase = .idle → s.memReady = false → 8 ≤ s.bufLen.toNat →
    s.bufAddr.toNat + s.bufLen.toNat ≤ 2 ^ 32 →
    exec .encode s = exec (.wr .ctrl 0x00000003) s ∧ exec .decode s = exec (.wr .ctrl 0x00000004) s)

/-! ### The whole machine -/

/-- What presents itself to the machine runs as decoded: when the next input presents a form that decodes to `i`, a step
is `exec i` at the state with that input taken off the list; a word that does not decode is `BUSY_WRITE` while busy and
`ILLEGAL_CMD` while idle (R121, R132, R133). The list of inputs and the format C item are the model's (log entries 1, 2
and 3). -/
def Obligations.StepRunsTheDecodedInstruction : Prop :=
  ∀ (s : State) (f : Form) (rest : List Input), s.inputs = .present f :: rest →
    (∀ i, decode f = .ok i → step s = exec i { s with inputs := rest }) ∧
    (∀ r, decode f = .error r →
      step s = .next { s with
        inputs := rest, err := true,
        errCode := if s.err then s.errCode else if s.phase = .run then 0x2 else 0x1 })

/-- The other inputs, which are the model's choice (log entries 1 and 2): with none the engine steps if busy and nothing
happens if idle (R121, R141); an engine item lets the engine step. -/
def Obligations.StepWithoutTransaction : Prop :=
  ∀ s : State,
    (s.inputs = [] → s.phase = .idle → step s = .next s) ∧
    (s.inputs = [] → s.phase = .run → step s = .next (engineStep s)) ∧
    (∀ rest, s.inputs = .engine :: rest → step s = .next (engineStep { s with inputs := rest }))

/-- Reset gives every piece of engine state the value zero, whatever it was (R150, R20); memory is untouched, except
that of a block whose store may have begun any bytes may be new (R151; which ones is a free value, log entry 9). -/
def Obligations.ResetClearsTheEngine : Prop :=
  ∀ (s : State) (rest : List Input), s.inputs = .reset :: rest →
    ∃ t, step s = .next t ∧
      (∀ i : KeyIndex, t.k[i] = 0) ∧ t.n1 = 0 ∧ t.n2 = 0 ∧ t.bufAddr = 0 ∧ t.bufLen = 0 ∧
      t.phase = .idle ∧ t.done = false ∧ t.err = false ∧ t.errCode = 0 ∧ t.statusWord = 0 ∧
      t.opc = none ∧ t.ksel = 0 ∧ t.dir = .encrypt ∧ t.rc = 0 ∧ t.bph = .load ∧ t.ptr = 0 ∧ t.cnt = 0 ∧
      t.inputs = rest ∧
      (s.bufferBusy = false ∨ s.bph ≠ .store → t.mem = s.mem) ∧
      (∀ a, t.mem.read a = s.mem.read a ∨ t.mem.read a = (storeBlock s.mem s.ptr (s.n1, s.n2)).read a)

/-- R20: the state right after reset: every piece of the engine's state is zero, and a command is accepted at once;
reset of an idle engine leaves the buffer memory alone. -/
def Obligations.ResetValues : Prop :=
  (∀ i : KeyIndex, State.reset.k[i] = 0) ∧ State.reset.n1 = 0 ∧ State.reset.n2 = 0 ∧
  State.reset.bufAddr = 0 ∧ State.reset.bufLen = 0 ∧ State.reset.statusWord = 0 ∧
  State.reset.phase = .idle ∧ State.reset.done = false ∧ State.reset.err = false ∧ State.reset.errCode = 0 ∧
  State.reset.opc = none ∧ State.reset.ksel = 0 ∧ State.reset.dir = .encrypt ∧ State.reset.rc = 0 ∧
  State.reset.bph = .load ∧ State.reset.ptr = 0 ∧ State.reset.cnt = 0 ∧
  (∀ cmd : Command, cmd.wellFormed = true →
    ∃ a, exec (.wr .ctrl cmd.word) State.reset = .next a ∧ a.phase = .run ∧ a.opc = some cmd.op) ∧
  (∀ (s : State) (rest : List Input), s.inputs = .reset :: rest → s.phase = .idle →
    ∃ t, step s = .next t ∧ t.mem = s.mem ∧ t.statusWord = 0)

/-- The invariant holds at reset (that memory then lists nothing is the model's choice, log entry 5). -/
def Obligations.InvariantAtReset : Prop := Inv State.reset

/-- Every step keeps the invariant: the canonical memory, `BUSY` and `DONE` never both 1, `ERRCODE` 0 exactly when `ERR`
is 0 and never above 3, `RC` at most 32, the direction that of the opcode, and the sequencer of a running buffer
operation inside its window (10_state.md R13, R15, R17, 43_simple_replacement.md R103). -/
def Obligations.StepKeepsTheInvariant : Prop :=
  ∀ s t : State, Inv s → step s = .next t → Inv t

/-- R155, R38 and U6: a step always goes on. A write by another agent is done, and beside memory it touches the model's own
record of early accesses only; outside the blocks that the engine has not finished it changes that byte alone; into such a
block it may find bytes that the engine has stored already, each of them a byte of the transform of what the engine has read
of that block. As long as R38 is kept nothing is accessed early. How the orders that R36 leaves open are chosen is the
model's (log entries 8 and 10), and so is that they stand open where the memory does not answer (log entry 17). -/
def Obligations.AnotherAgentsWriteGoesOn : Prop :=
  (∀ s : State, SafeStep s) ∧
  (∀ (s : State) (a : Word) (b : Byte) (rest : List Input), s.inputs = .memWrite a b :: rest →
    ∃ t, step s = .next t ∧ t.mem.read a = b ∧
      t = { s with
        inputs := rest, mem := t.mem, readEarly := t.readEarly, storedEarly := t.storedEarly, freeIdx := t.freeIdx } ∧
      (s.unfinished a = false → (∀ x, x ≠ a → t.mem.read x = s.mem.read x) ∧ t.readEarly = s.readEarly ∧
        t.storedEarly = s.storedEarly) ∧
      (s.unfinished a = true → ∀ x, x ≠ a → t.mem.read x = s.mem.read x ∨
        ∃ i, i < 8 ∧ x = s.blockOf a + BitVec.ofNat 32 i ∧
          t.mem.read x = (blockBytes (s.blockResult (s.blockOf a))).getD i 0)) ∧
  (∀ s t : State, Exclusive s → s.readEarly = [] → s.storedEarly = [] → step s = .next t →
    t.readEarly = [] ∧ t.storedEarly = [])

/-- R24: an operation depends on no state but its operands at acceptance: two idle states that agree on the key and the
pair get the same pair from every command that works on registers only. -/
def Obligations.OperationDependsOnItsOperands : Prop :=
  ∀ (i : Instr) (s₁ s₂ t₁ t₂ : State), i.command?.isSome = true → i ≠ .encode → i ≠ .decode →
    s₁.phase = .idle → s₂.phase = .idle → s₁.k = s₂.k → s₁.pair = s₂.pair →
    exec i s₁ = .next t₁ → exec i s₂ = .next t₂ → t₁.pair = t₂.pair

/-! ### Scripts (30_encoding.md R53) -/

/-- LDKEY, LDPAIR and SETBUF on an idle engine load what they name, step by step, and nothing else. -/
def Obligations.ScriptsLoadTheOperands : Prop :=
  ∀ (s : State) (rest : List Input), s.phase = .idle →
    (∀ key : Key, runSteps 8 { s with inputs := scriptLdkey key ++ rest } = .next { s with k := key, inputs := rest }) ∧
    (∀ p : Pair, runSteps 2 { s with inputs := scriptLdpair p ++ rest } =
      .next { s with n1 := p.1, n2 := p.2, inputs := rest }) ∧
    (∀ a len : Word, runSteps 2 { s with inputs := scriptSetbuf a len ++ rest } =
      .next { s with bufAddr := a, bufLen := len, inputs := rest })

/-- RUN by transactions is RUN as one input: a command written to `CTRL`, its engine steps and a read of `STATUS` lead
to the state that the format C item leads to in one step, but for the value read, which shows `BUSY` = 0. That a format C
item is RUN as one input is the model's choice (log entry 3), and so is what its meaning leaves in the hidden sequencing
registers (log entry 13). -/
def Obligations.RunByTransactionsIsRunWhole : Prop :=
  ∀ (s : State) (cmd : Command) (rest : List Input), cmd.wellFormed = true → s.phase = .idle → s.memReady = true →
    (cmd.op = .encode ∨ cmd.op = .decode → s.bufAddr.toNat + s.bufLen.toNat ≤ 2 ^ 32) →
    ∃ t, runSteps 1 { s with inputs := scriptRunWhole cmd ++ rest } = .next t ∧
      runSteps (stepCount cmd.op (s.bufLen.toNat / 8) + 2)
          { s with inputs := scriptRun cmd (stepCount cmd.op (s.bufLen.toNat / 8)) ++ rest } =
        .next { t with rdata := t.statusWord } ∧
      t.statusWord.getLsbD 0 = false
end

