-- ==== Sys2Proof/Laws/Memory.lean ====
section
/-! SUPPORT. The laws of the buffer memory: read after write, for every list of cells, and that every memory operation keeps
the canonical form. -/

namespace Sys2Proof.Machine

/-! ### One byte -/

theorem lookup_insertCell_same (m : Memory) (a : Nat) (b : Byte) : lookup (insertCell m a b) a = some b := by
  induction m with
  | nil => simp [insertCell, lookup]
  | cons c rest ih =>
    by_cases h1 : a < c.1
    · simp [insertCell, h1, lookup]
    · by_cases h2 : a = c.1
      · simp [insertCell, h2, lookup]
      · have h3 : c.1 ≠ a := fun e => h2 e.symm
        simp [insertCell, h1, h2, h3, lookup, ih]

theorem lookup_insertCell_other (m : Memory) {a x : Nat} (b : Byte) (h : x ≠ a) :
    lookup (insertCell m a b) x = lookup m x := by
  have h' : a ≠ x := fun e => h e.symm
  induction m with
  | nil => simp [insertCell, lookup, h']
  | cons c rest ih =>
    by_cases h1 : a < c.1
    · simp [insertCell, h1, lookup, h']
    · by_cases h2 : a = c.1
      · subst h2
        simp [insertCell, lookup, h']
      · simp [insertCell, h1, h2, lookup, ih]

theorem lookup_write_same (m : Memory) (a : Word) (b : Byte) : lookup (m.write a b) a.toNat = some b :=
  lookup_insertCell_same m _ b

theorem lookup_write_other (m : Memory) {a x : Word} (b : Byte) (h : x ≠ a) :
    lookup (m.write a b) x.toNat = lookup m x.toNat :=
  lookup_insertCell_other m b fun e => h (BitVec.eq_of_toNat_eq e)

/-- A read after a write to the same address gives the byte written (20_memory.md R43). -/
@[simp] theorem Memory.read_write_same (m : Memory) (a : Word) (b : Byte) : (m.write a b).read a = b := by
  simp [Memory.read, lookup_write_same]

/-- A write leaves every other address alone (R43). -/
theorem Memory.read_write_other (m : Memory) {a x : Word} (b : Byte) (h : x ≠ a) : (m.write a b).read x = m.read x := by
  simp [Memory.read, lookup_write_other m b h]

/-! ### The canonical form -/

theorem cellsFrom_insertCell {lo a : Nat} {b : Byte} {m : Memory} (hlo : lo ≤ a) (ha : a < 2 ^ 32)
    (hm : cellsFrom lo m = true) : cellsFrom lo (insertCell m a b) = true := by
  induction m generalizing lo with
  | nil =>
    simp only [insertCell, cellsFrom, Bool.and_eq_true, decide_eq_true_eq]
    exact ⟨⟨hlo, ha⟩, trivial⟩
  | cons c rest ih =>
    simp only [cellsFrom, Bool.and_eq_true, decide_eq_true_eq] at hm
    obtain ⟨⟨h1, h2⟩, h3⟩ := hm
    by_cases hlt : a < c.1
    · simp only [insertCell, hlt, if_true, cellsFrom, Bool.and_eq_true, decide_eq_true_eq]
      exact ⟨⟨hlo, ha⟩, ⟨hlt, h2⟩, h3⟩
    · by_cases heq : a = c.1
      · subst heq
        simp only [insertCell, lt_irrefl, if_false, if_true, cellsFrom, Bool.and_eq_true, decide_eq_true_eq]
        exact ⟨⟨h1, h2⟩, h3⟩
      · simp only [insertCell, hlt, heq, if_false, cellsFrom, Bool.and_eq_true, decide_eq_true_eq]
        exact ⟨⟨h1, h2⟩, ih (by omega) h3⟩

/-- A write keeps the canonical form. -/
theorem Memory.wf_write {m : Memory} (a : Word) (b : Byte) (h : m.wf = true) : (m.write a b).wf = true :=
  cellsFrom_insertCell (Nat.zero_le _) a.isLt h

/-- `MemWrite` keeps the canonical form. -/
theorem wf_memWrite {m : Memory} (a : Word) (bs : List Byte) (h : m.wf = true) : (memWrite m a bs).wf = true := by
  induction bs generalizing m a with
  | nil => exact h
  | cons b rest ih => exact ih (a + 1) (Memory.wf_write a b h)

/-- `StoreBlock` keeps the canonical form. -/
theorem wf_storeBlock {m : Memory} (a : Word) (p : Pair) (h : m.wf = true) : (storeBlock m a p).wf = true :=
  wf_memWrite a _ h

/-- Part of a store keeps the canonical form. -/
theorem wf_storeSome (skip : Memory) {m : Memory} (a : Word) (bs : List Byte) (mask : BitVec 8) (h : m.wf = true) :
    (storeSome skip m a bs mask).wf = true := by
  induction bs generalizing m a mask with
  | nil => exact h
  | cons b rest ih =>
    unfold storeSome
    split
    · exact ih (a + 1) _ (Memory.wf_write a b h)
    · exact ih (a + 1) _ h

/-! ### Several bytes -/

/-- `MemWrite` leaves every address outside the written ones alone. -/
theorem read_memWrite_outside (m : Memory) (a x : Word) (bs : List Byte)
    (h : ∀ i, i < bs.length → x ≠ a + BitVec.ofNat 32 i) : (memWrite m a bs).read x = m.read x := by
  induction bs generalizing m a with
  | nil => rfl
  | cons b rest ih =>
    have h0 : x ≠ a := by simpa using h 0 (by simp)
    rw [memWrite, ih (m.write a b) (a + 1), Memory.read_write_other m b h0]
    intro i hi
    have := h (i + 1) (by simpa using hi)
    rwa [BitVec.ofNat_add, BitVec.add_comm (BitVec.ofNat 32 i), ← BitVec.add_assoc] at this

/-- A read inside what `MemWrite` wrote gives the byte written there, when the bytes do not wrap onto each other. -/
theorem read_memWrite_inside (m : Memory) (a : Word) (bs : List Byte) (i : Nat) (hi : i < bs.length)
    (hlen : bs.length ≤ 2 ^ 32) : (memWrite m a bs).read (a + BitVec.ofNat 32 i) = bs[i] := by
  induction bs generalizing m a i with
  | nil => exact absurd hi (by simp)
  | cons b rest ih =>
    have hlen' : rest.length + 1 ≤ 2 ^ 32 := by simpa using hlen
    cases i with
    | zero =>
      rw [memWrite, BitVec.ofNat_eq_ofNat, BitVec.add_zero, read_memWrite_outside]
      · simp
      · intro j hj e
        have := congrArg BitVec.toNat e
        simp only [BitVec.toNat_add, BitVec.toNat_ofNat] at this
        omega
    | succ j =>
      have e : a + BitVec.ofNat 32 (j + 1) = a + 1 + BitVec.ofNat 32 j := by
        rw [BitVec.ofNat_add, BitVec.add_comm (BitVec.ofNat 32 j), ← BitVec.add_assoc]
        rfl
      rw [memWrite, e, ih (m.write a b) (a + 1) j (by simpa using hi) (by omega)]
      rfl

/-- What `MemWrite` leaves at an address depends on what was at that address only. -/
theorem read_memWrite_congr {m m' : Memory} (a : Word) {x : Word} (bs : List Byte) (h : m.read x = m'.read x) :
    (memWrite m a bs).read x = (memWrite m' a bs).read x := by
  induction bs generalizing m m' a with
  | nil => exact h
  | cons b rest ih =>
    apply ih
    by_cases e : x = a
    · subst e; simp
    · rw [Memory.read_write_other _ _ e, Memory.read_write_other _ _ e, h]

theorem add_one_add_ofNat (a : Word) (i : Nat) : a + 1 + BitVec.ofNat 32 i = a + BitVec.ofNat 32 (i + 1) := by
  rw [BitVec.ofNat_add, BitVec.add_comm (BitVec.ofNat 32 i), ← BitVec.add_assoc]
  rfl

/-- Part of a store leaves what is listed outside the bytes alone. -/
theorem lookup_storeSome_outside (skip m : Memory) (a x : Word) (bs : List Byte) (mask : BitVec 8)
    (h : ∀ i, i < bs.length → x ≠ a + BitVec.ofNat 32 i) :
    lookup (storeSome skip m a bs mask) x.toNat = lookup m x.toNat := by
  induction bs generalizing m a mask with
  | nil => rfl
  | cons b rest ih =>
    have h0 : x ≠ a := by simpa using h 0 (by simp)
    rw [storeSome, ih _ (a + 1)]
    · split
      · exact lookup_write_other m b h0
      · rfl
    · intro i hi
      rw [add_one_add_ofNat]
      exact h (i + 1) (by simpa using hi)

/-- Byte `i` of a part of a store: written if the mask selects it and `skip` does not list it, else as it was. -/
theorem lookup_storeSome_inside (skip m : Memory) (a : Word) (bs : List Byte) (mask : BitVec 8) (i : Nat)
    (hi : i < bs.length) (hlen : bs.length ≤ 2 ^ 32) :
    lookup (storeSome skip m a bs mask) (a + BitVec.ofNat 32 i).toNat =
      if mask.getLsbD i && (lookup skip (a + BitVec.ofNat 32 i).toNat).isNone then some bs[i]
      else lookup m (a + BitVec.ofNat 32 i).toNat := by
  induction bs generalizing m a mask i with
  | nil => exact absurd hi (by simp)
  | cons b rest ih =>
    have hlen' : rest.length + 1 ≤ 2 ^ 32 := by simpa using hlen
    have hne : ∀ j, j < rest.length → a ≠ a + BitVec.ofNat 32 (j + 1) := by
      intro j hj e
      have := congrArg BitVec.toNat e
      simp only [BitVec.toNat_add, BitVec.toNat_ofNat] at this
      omega
    rw [storeSome]
    cases i with
    | zero =>
      rw [BitVec.ofNat_eq_ofNat, BitVec.add_zero, lookup_storeSome_outside]
      · split
        · exact lookup_write_same m a b
        · rfl
      · intro j hj
        have := hne j hj
        rwa [← add_one_add_ofNat] at this
    | succ j =>
      have hj : j < rest.length := by simpa using hi
      rw [← add_one_add_ofNat, ih _ (a + 1) _ j hj (by omega)]
      have e1 : (mask >>> 1).getLsbD j = mask.getLsbD (j + 1) := by
        rw [BitVec.getLsbD_ushiftRight, Nat.add_comm]
      rw [e1]
      split
      · rfl
      · split
        · exact lookup_write_other m b fun e => hne j hj (by rw [← add_one_add_ofNat]; exact e.symm)
        · rfl

/-- Byte `i` of memory after a part of a store. -/
theorem read_storeSome_inside (skip m : Memory) (a : Word) (bs : List Byte) (mask : BitVec 8) (i : Nat)
    (hi : i < bs.length) (hlen : bs.length ≤ 2 ^ 32) :
    (storeSome skip m a bs mask).read (a + BitVec.ofNat 32 i) =
      if mask.getLsbD i && (lookup skip (a + BitVec.ofNat 32 i).toNat).isNone then bs[i]
      else m.read (a + BitVec.ofNat 32 i) := by
  rw [Memory.read, lookup_storeSome_inside skip m a bs mask i hi hlen]
  split <;> rfl

/-- Part of a store leaves memory outside the bytes alone. -/
theorem read_storeSome_outside (skip m : Memory) (a x : Word) (bs : List Byte) (mask : BitVec 8)
    (h : ∀ i, i < bs.length → x ≠ a + BitVec.ofNat 32 i) : (storeSome skip m a bs mask).read x = m.read x := by
  rw [Memory.read, lookup_storeSome_outside skip m a x bs mask h]
  rfl

/-- Everything a part of a store can leave at an address: what was there, or the byte of the whole store (R151). -/
theorem read_storeSome (skip m : Memory) (a x : Word) (bs : List Byte) (mask : BitVec 8) (hlen : bs.length ≤ 8) :
    (storeSome skip m a bs mask).read x = m.read x ∨
      (storeSome skip m a bs mask).read x = (memWrite m a bs).read x := by
  by_cases h : ∃ i, i < bs.length ∧ x = a + BitVec.ofNat 32 i
  · obtain ⟨i, hi, rfl⟩ := h
    rw [read_storeSome_inside skip m a bs mask i hi (by omega), read_memWrite_inside m a bs i hi (by omega)]
    split
    · exact .inr rfl
    · exact .inl rfl
  · exact .inl (read_storeSome_outside skip m a x bs mask fun i hi e => h ⟨i, hi, e⟩)

/-- A block with nothing stored early is stored whole (R31). -/
theorem storeSome_all (m : Memory) (a : Word) (p : Pair) :
    storeSome [] m a (blockBytes p) (BitVec.allOnes 8) = storeBlock m a p := rfl

/-- With nothing read early the engine sees the memory. -/
@[simp] theorem memSeen_nil (m : Memory) (a : Word) (n : Nat) : memSeen [] m a n = memRead m a n := by
  induction n generalizing a with
  | zero => rfl
  | succ n ih => rw [memSeen, memRead, ih]; rfl

@[simp] theorem loadSeen_nil (m : Memory) (a : Word) : loadSeen [] m a = loadBlock m a := by
  rw [loadSeen, memSeen_nil, loadBlock]

end Sys2Proof.Machine
end

