-- ==== Sys2Proof/Laws/State.lean ====
section
/-! SUPPORT. One lemma per field per named update of `State`, true by `rfl`, so that no later proof unfolds a record
update; then what `busy` is after each. -/

namespace Sys2Proof.Machine

/-! ### `setPair` -/

@[simp] theorem State.setPair_k (s : State) (p : Pair) : (s.setPair p).k = s.k := rfl
@[simp] theorem State.setPair_n1 (s : State) (p : Pair) : (s.setPair p).n1 = p.1 := rfl
@[simp] theorem State.setPair_n2 (s : State) (p : Pair) : (s.setPair p).n2 = p.2 := rfl
@[simp] theorem State.setPair_bufAddr (s : State) (p : Pair) : (s.setPair p).bufAddr = s.bufAddr := rfl
@[simp] theorem State.setPair_bufLen (s : State) (p : Pair) : (s.setPair p).bufLen = s.bufLen := rfl
@[simp] theorem State.setPair_phase (s : State) (p : Pair) : (s.setPair p).phase = s.phase := rfl
@[simp] theorem State.setPair_done (s : State) (p : Pair) : (s.setPair p).done = s.done := rfl
@[simp] theorem State.setPair_err (s : State) (p : Pair) : (s.setPair p).err = s.err := rfl
@[simp] theorem State.setPair_errCode (s : State) (p : Pair) : (s.setPair p).errCode = s.errCode := rfl
@[simp] theorem State.setPair_opc (s : State) (p : Pair) : (s.setPair p).opc = s.opc := rfl
@[simp] theorem State.setPair_ksel (s : State) (p : Pair) : (s.setPair p).ksel = s.ksel := rfl
@[simp] theorem State.setPair_dir (s : State) (p : Pair) : (s.setPair p).dir = s.dir := rfl
@[simp] theorem State.setPair_rc (s : State) (p : Pair) : (s.setPair p).rc = s.rc := rfl
@[simp] theorem State.setPair_bph (s : State) (p : Pair) : (s.setPair p).bph = s.bph := rfl
@[simp] theorem State.setPair_ptr (s : State) (p : Pair) : (s.setPair p).ptr = s.ptr := rfl
@[simp] theorem State.setPair_cnt (s : State) (p : Pair) : (s.setPair p).cnt = s.cnt := rfl
@[simp] theorem State.setPair_rdata (s : State) (p : Pair) : (s.setPair p).rdata = s.rdata := rfl
@[simp] theorem State.setPair_mem (s : State) (p : Pair) : (s.setPair p).mem = s.mem := rfl
@[simp] theorem State.setPair_memReady (s : State) (p : Pair) : (s.setPair p).memReady = s.memReady := rfl
@[simp] theorem State.setPair_readEarly (s : State) (p : Pair) : (s.setPair p).readEarly = s.readEarly := rfl
@[simp] theorem State.setPair_storedEarly (s : State) (p : Pair) : (s.setPair p).storedEarly = s.storedEarly := rfl
@[simp] theorem State.setPair_inputs (s : State) (p : Pair) : (s.setPair p).inputs = s.inputs := rfl
@[simp] theorem State.setPair_freeIdx (s : State) (p : Pair) : (s.setPair p).freeIdx = s.freeIdx := rfl

/-! ### `setKey` -/

@[simp] theorem State.setKey_k (s : State) (i : KeyIndex) (v : Word) : (s.setKey i v).k = s.k.set i v := rfl
@[simp] theorem State.setKey_n1 (s : State) (i : KeyIndex) (v : Word) : (s.setKey i v).n1 = s.n1 := rfl
@[simp] theorem State.setKey_n2 (s : State) (i : KeyIndex) (v : Word) : (s.setKey i v).n2 = s.n2 := rfl
@[simp] theorem State.setKey_bufAddr (s : State) (i : KeyIndex) (v : Word) : (s.setKey i v).bufAddr = s.bufAddr := rfl
@[simp] theorem State.setKey_bufLen (s : State) (i : KeyIndex) (v : Word) : (s.setKey i v).bufLen = s.bufLen := rfl
@[simp] theorem State.setKey_phase (s : State) (i : KeyIndex) (v : Word) : (s.setKey i v).phase = s.phase := rfl
@[simp] theorem State.setKey_done (s : State) (i : KeyIndex) (v : Word) : (s.setKey i v).done = s.done := rfl
@[simp] theorem State.setKey_err (s : State) (i : KeyIndex) (v : Word) : (s.setKey i v).err = s.err := rfl
@[simp] theorem State.setKey_errCode (s : State) (i : KeyIndex) (v : Word) : (s.setKey i v).errCode = s.errCode := rfl
@[simp] theorem State.setKey_opc (s : State) (i : KeyIndex) (v : Word) : (s.setKey i v).opc = s.opc := rfl
@[simp] theorem State.setKey_ksel (s : State) (i : KeyIndex) (v : Word) : (s.setKey i v).ksel = s.ksel := rfl
@[simp] theorem State.setKey_dir (s : State) (i : KeyIndex) (v : Word) : (s.setKey i v).dir = s.dir := rfl
@[simp] theorem State.setKey_rc (s : State) (i : KeyIndex) (v : Word) : (s.setKey i v).rc = s.rc := rfl
@[simp] theorem State.setKey_bph (s : State) (i : KeyIndex) (v : Word) : (s.setKey i v).bph = s.bph := rfl
@[simp] theorem State.setKey_ptr (s : State) (i : KeyIndex) (v : Word) : (s.setKey i v).ptr = s.ptr := rfl
@[simp] theorem State.setKey_cnt (s : State) (i : KeyIndex) (v : Word) : (s.setKey i v).cnt = s.cnt := rfl
@[simp] theorem State.setKey_rdata (s : State) (i : KeyIndex) (v : Word) : (s.setKey i v).rdata = s.rdata := rfl
@[simp] theorem State.setKey_mem (s : State) (i : KeyIndex) (v : Word) : (s.setKey i v).mem = s.mem := rfl
@[simp] theorem State.setKey_memReady (s : State) (i : KeyIndex) (v : Word) : (s.setKey i v).memReady = s.memReady := rfl
@[simp] theorem State.setKey_readEarly (s : State) (i : KeyIndex) (v : Word) : (s.setKey i v).readEarly = s.readEarly := rfl
@[simp] theorem State.setKey_storedEarly (s : State) (i : KeyIndex) (v : Word) : (s.setKey i v).storedEarly = s.storedEarly := rfl
@[simp] theorem State.setKey_inputs (s : State) (i : KeyIndex) (v : Word) : (s.setKey i v).inputs = s.inputs := rfl
@[simp] theorem State.setKey_freeIdx (s : State) (i : KeyIndex) (v : Word) : (s.setKey i v).freeIdx = s.freeIdx := rfl

/-! ### `raise` -/

@[simp] theorem State.raise_k (s : State) (e : ErrorKind) : (s.raise e).k = s.k := rfl
@[simp] theorem State.raise_n1 (s : State) (e : ErrorKind) : (s.raise e).n1 = s.n1 := rfl
@[simp] theorem State.raise_n2 (s : State) (e : ErrorKind) : (s.raise e).n2 = s.n2 := rfl
@[simp] theorem State.raise_bufAddr (s : State) (e : ErrorKind) : (s.raise e).bufAddr = s.bufAddr := rfl
@[simp] theorem State.raise_bufLen (s : State) (e : ErrorKind) : (s.raise e).bufLen = s.bufLen := rfl
@[simp] theorem State.raise_phase (s : State) (e : ErrorKind) : (s.raise e).phase = s.phase := rfl
@[simp] theorem State.raise_done (s : State) (e : ErrorKind) : (s.raise e).done = s.done := rfl
@[simp] theorem State.raise_err (s : State) (e : ErrorKind) : (s.raise e).err = true := rfl
@[simp] theorem State.raise_errCode (s : State) (e : ErrorKind) : (s.raise e).errCode = if s.err then s.errCode else e.code := rfl
@[simp] theorem State.raise_opc (s : State) (e : ErrorKind) : (s.raise e).opc = s.opc := rfl
@[simp] theorem State.raise_ksel (s : State) (e : ErrorKind) : (s.raise e).ksel = s.ksel := rfl
@[simp] theorem State.raise_dir (s : State) (e : ErrorKind) : (s.raise e).dir = s.dir := rfl
@[simp] theorem State.raise_rc (s : State) (e : ErrorKind) : (s.raise e).rc = s.rc := rfl
@[simp] theorem State.raise_bph (s : State) (e : ErrorKind) : (s.raise e).bph = s.bph := rfl
@[simp] theorem State.raise_ptr (s : State) (e : ErrorKind) : (s.raise e).ptr = s.ptr := rfl
@[simp] theorem State.raise_cnt (s : State) (e : ErrorKind) : (s.raise e).cnt = s.cnt := rfl
@[simp] theorem State.raise_rdata (s : State) (e : ErrorKind) : (s.raise e).rdata = s.rdata := rfl
@[simp] theorem State.raise_mem (s : State) (e : ErrorKind) : (s.raise e).mem = s.mem := rfl
@[simp] theorem State.raise_memReady (s : State) (e : ErrorKind) : (s.raise e).memReady = s.memReady := rfl
@[simp] theorem State.raise_readEarly (s : State) (e : ErrorKind) : (s.raise e).readEarly = s.readEarly := rfl
@[simp] theorem State.raise_storedEarly (s : State) (e : ErrorKind) : (s.raise e).storedEarly = s.storedEarly := rfl
@[simp] theorem State.raise_inputs (s : State) (e : ErrorKind) : (s.raise e).inputs = s.inputs := rfl
@[simp] theorem State.raise_freeIdx (s : State) (e : ErrorKind) : (s.raise e).freeIdx = s.freeIdx := rfl

/-! ### `clearError` -/

@[simp] theorem State.clearError_k (s : State) : (s.clearError).k = s.k := rfl
@[simp] theorem State.clearError_n1 (s : State) : (s.clearError).n1 = s.n1 := rfl
@[simp] theorem State.clearError_n2 (s : State) : (s.clearError).n2 = s.n2 := rfl
@[simp] theorem State.clearError_bufAddr (s : State) : (s.clearError).bufAddr = s.bufAddr := rfl
@[simp] theorem State.clearError_bufLen (s : State) : (s.clearError).bufLen = s.bufLen := rfl
@[simp] theorem State.clearError_phase (s : State) : (s.clearError).phase = s.phase := rfl
@[simp] theorem State.clearError_done (s : State) : (s.clearError).done = s.done := rfl
@[simp] theorem State.clearError_err (s : State) : (s.clearError).err = false := rfl
@[simp] theorem State.clearError_errCode (s : State) : (s.clearError).errCode = 0 := rfl
@[simp] theorem State.clearError_opc (s : State) : (s.clearError).opc = s.opc := rfl
@[simp] theorem State.clearError_ksel (s : State) : (s.clearError).ksel = s.ksel := rfl
@[simp] theorem State.clearError_dir (s : State) : (s.clearError).dir = s.dir := rfl
@[simp] theorem State.clearError_rc (s : State) : (s.clearError).rc = s.rc := rfl
@[simp] theorem State.clearError_bph (s : State) : (s.clearError).bph = s.bph := rfl
@[simp] theorem State.clearError_ptr (s : State) : (s.clearError).ptr = s.ptr := rfl
@[simp] theorem State.clearError_cnt (s : State) : (s.clearError).cnt = s.cnt := rfl
@[simp] theorem State.clearError_rdata (s : State) : (s.clearError).rdata = s.rdata := rfl
@[simp] theorem State.clearError_mem (s : State) : (s.clearError).mem = s.mem := rfl
@[simp] theorem State.clearError_memReady (s : State) : (s.clearError).memReady = s.memReady := rfl
@[simp] theorem State.clearError_readEarly (s : State) : (s.clearError).readEarly = s.readEarly := rfl
@[simp] theorem State.clearError_storedEarly (s : State) : (s.clearError).storedEarly = s.storedEarly := rfl
@[simp] theorem State.clearError_inputs (s : State) : (s.clearError).inputs = s.inputs := rfl
@[simp] theorem State.clearError_freeIdx (s : State) : (s.clearError).freeIdx = s.freeIdx := rfl

/-! ### `writeStatus` -/

@[simp] theorem State.writeStatus_k (s : State) (m : Word) : (s.writeStatus m).k = s.k := rfl
@[simp] theorem State.writeStatus_n1 (s : State) (m : Word) : (s.writeStatus m).n1 = s.n1 := rfl
@[simp] theorem State.writeStatus_n2 (s : State) (m : Word) : (s.writeStatus m).n2 = s.n2 := rfl
@[simp] theorem State.writeStatus_bufAddr (s : State) (m : Word) : (s.writeStatus m).bufAddr = s.bufAddr := rfl
@[simp] theorem State.writeStatus_bufLen (s : State) (m : Word) : (s.writeStatus m).bufLen = s.bufLen := rfl
@[simp] theorem State.writeStatus_phase (s : State) (m : Word) : (s.writeStatus m).phase = s.phase := rfl
@[simp] theorem State.writeStatus_done (s : State) (m : Word) : (s.writeStatus m).done = (s.done && !m.getLsbD 1) := rfl
@[simp] theorem State.writeStatus_err (s : State) (m : Word) : (s.writeStatus m).err = if m.getLsbD 2 then false else s.err := rfl
@[simp] theorem State.writeStatus_errCode (s : State) (m : Word) : (s.writeStatus m).errCode = if m.getLsbD 2 then 0 else s.errCode := rfl
@[simp] theorem State.writeStatus_opc (s : State) (m : Word) : (s.writeStatus m).opc = s.opc := rfl
@[simp] theorem State.writeStatus_ksel (s : State) (m : Word) : (s.writeStatus m).ksel = s.ksel := rfl
@[simp] theorem State.writeStatus_dir (s : State) (m : Word) : (s.writeStatus m).dir = s.dir := rfl
@[simp] theorem State.writeStatus_rc (s : State) (m : Word) : (s.writeStatus m).rc = s.rc := rfl
@[simp] theorem State.writeStatus_bph (s : State) (m : Word) : (s.writeStatus m).bph = s.bph := rfl
@[simp] theorem State.writeStatus_ptr (s : State) (m : Word) : (s.writeStatus m).ptr = s.ptr := rfl
@[simp] theorem State.writeStatus_cnt (s : State) (m : Word) : (s.writeStatus m).cnt = s.cnt := rfl
@[simp] theorem State.writeStatus_rdata (s : State) (m : Word) : (s.writeStatus m).rdata = s.rdata := rfl
@[simp] theorem State.writeStatus_mem (s : State) (m : Word) : (s.writeStatus m).mem = s.mem := rfl
@[simp] theorem State.writeStatus_memReady (s : State) (m : Word) : (s.writeStatus m).memReady = s.memReady := rfl
@[simp] theorem State.writeStatus_readEarly (s : State) (m : Word) : (s.writeStatus m).readEarly = s.readEarly := rfl
@[simp] theorem State.writeStatus_storedEarly (s : State) (m : Word) : (s.writeStatus m).storedEarly = s.storedEarly := rfl
@[simp] theorem State.writeStatus_inputs (s : State) (m : Word) : (s.writeStatus m).inputs = s.inputs := rfl
@[simp] theorem State.writeStatus_freeIdx (s : State) (m : Word) : (s.writeStatus m).freeIdx = s.freeIdx := rfl

/-! ### `accept` -/

@[simp] theorem State.accept_k (s : State) (c : Command) : (s.accept c).k = s.k := rfl
@[simp] theorem State.accept_n1 (s : State) (c : Command) : (s.accept c).n1 = s.n1 := rfl
@[simp] theorem State.accept_n2 (s : State) (c : Command) : (s.accept c).n2 = s.n2 := rfl
@[simp] theorem State.accept_bufAddr (s : State) (c : Command) : (s.accept c).bufAddr = s.bufAddr := rfl
@[simp] theorem State.accept_bufLen (s : State) (c : Command) : (s.accept c).bufLen = s.bufLen := rfl
@[simp] theorem State.accept_phase (s : State) (c : Command) : (s.accept c).phase = .run := rfl
@[simp] theorem State.accept_done (s : State) (c : Command) : (s.accept c).done = false := rfl
@[simp] theorem State.accept_err (s : State) (c : Command) : (s.accept c).err = s.err := rfl
@[simp] theorem State.accept_errCode (s : State) (c : Command) : (s.accept c).errCode = s.errCode := rfl
@[simp] theorem State.accept_opc (s : State) (c : Command) : (s.accept c).opc = some c.op := rfl
@[simp] theorem State.accept_ksel (s : State) (c : Command) : (s.accept c).ksel = c.kidx := rfl
@[simp] theorem State.accept_dir (s : State) (c : Command) : (s.accept c).dir = directionOf c.op := rfl
@[simp] theorem State.accept_rc (s : State) (c : Command) : (s.accept c).rc = 0 := rfl
@[simp] theorem State.accept_bph (s : State) (c : Command) : (s.accept c).bph = .load := rfl
@[simp] theorem State.accept_ptr (s : State) (c : Command) : (s.accept c).ptr = s.bufAddr := rfl
@[simp] theorem State.accept_cnt (s : State) (c : Command) : (s.accept c).cnt = s.blockCount := rfl
@[simp] theorem State.accept_rdata (s : State) (c : Command) : (s.accept c).rdata = s.rdata := rfl
@[simp] theorem State.accept_mem (s : State) (c : Command) : (s.accept c).mem = s.mem := rfl
@[simp] theorem State.accept_memReady (s : State) (c : Command) : (s.accept c).memReady = s.memReady := rfl
@[simp] theorem State.accept_readEarly (s : State) (c : Command) : (s.accept c).readEarly = [] := rfl
@[simp] theorem State.accept_storedEarly (s : State) (c : Command) : (s.accept c).storedEarly = [] := rfl
@[simp] theorem State.accept_inputs (s : State) (c : Command) : (s.accept c).inputs = s.inputs := rfl
@[simp] theorem State.accept_freeIdx (s : State) (c : Command) : (s.accept c).freeIdx = s.freeIdx := rfl

/-! ### `complete` -/

@[simp] theorem State.complete_k (s : State) : (s.complete).k = s.k := rfl
@[simp] theorem State.complete_n1 (s : State) : (s.complete).n1 = s.n1 := rfl
@[simp] theorem State.complete_n2 (s : State) : (s.complete).n2 = s.n2 := rfl
@[simp] theorem State.complete_bufAddr (s : State) : (s.complete).bufAddr = s.bufAddr := rfl
@[simp] theorem State.complete_bufLen (s : State) : (s.complete).bufLen = s.bufLen := rfl
@[simp] theorem State.complete_phase (s : State) : (s.complete).phase = .idle := rfl
@[simp] theorem State.complete_done (s : State) : (s.complete).done = true := rfl
@[simp] theorem State.complete_err (s : State) : (s.complete).err = s.err := rfl
@[simp] theorem State.complete_errCode (s : State) : (s.complete).errCode = s.errCode := rfl
@[simp] theorem State.complete_opc (s : State) : (s.complete).opc = s.opc := rfl
@[simp] theorem State.complete_ksel (s : State) : (s.complete).ksel = s.ksel := rfl
@[simp] theorem State.complete_dir (s : State) : (s.complete).dir = s.dir := rfl
@[simp] theorem State.complete_rc (s : State) : (s.complete).rc = s.rc := rfl
@[simp] theorem State.complete_bph (s : State) : (s.complete).bph = s.bph := rfl
@[simp] theorem State.complete_ptr (s : State) : (s.complete).ptr = s.ptr := rfl
@[simp] theorem State.complete_cnt (s : State) : (s.complete).cnt = s.cnt := rfl
@[simp] theorem State.complete_rdata (s : State) : (s.complete).rdata = s.rdata := rfl
@[simp] theorem State.complete_mem (s : State) : (s.complete).mem = s.mem := rfl
@[simp] theorem State.complete_memReady (s : State) : (s.complete).memReady = s.memReady := rfl
@[simp] theorem State.complete_readEarly (s : State) : (s.complete).readEarly = s.readEarly := rfl
@[simp] theorem State.complete_storedEarly (s : State) : (s.complete).storedEarly = s.storedEarly := rfl
@[simp] theorem State.complete_inputs (s : State) : (s.complete).inputs = s.inputs := rfl
@[simp] theorem State.complete_freeIdx (s : State) : (s.complete).freeIdx = s.freeIdx := rfl

/-! ### `busy` -/

@[simp] theorem State.busy_setPair (s : State) (p : Pair) : (s.setPair p).busy = s.busy := rfl
@[simp] theorem State.busy_setKey (s : State) (i : KeyIndex) (v : Word) : (s.setKey i v).busy = s.busy := rfl
@[simp] theorem State.busy_raise (s : State) (e : ErrorKind) : (s.raise e).busy = s.busy := rfl
@[simp] theorem State.busy_clearError (s : State) : (s.clearError).busy = s.busy := rfl
@[simp] theorem State.busy_writeStatus (s : State) (m : Word) : (s.writeStatus m).busy = s.busy := rfl
@[simp] theorem State.busy_accept (s : State) (c : Command) : (s.accept c).busy = true := rfl
@[simp] theorem State.busy_complete (s : State) : (s.complete).busy = false := rfl

theorem State.busy_iff (s : State) : s.busy = true ↔ s.phase = .run := by
  cases h : s.phase <;> simp [State.busy, h]

theorem State.not_busy_iff (s : State) : s.busy = false ↔ s.phase = .idle := by
  cases h : s.phase <;> simp [State.busy, h]

@[simp] theorem State.pair_setPair (s : State) (p : Pair) : (s.setPair p).pair = p := rfl

@[simp] theorem State.key_setKey_same (s : State) (i : KeyIndex) (v : Word) : (s.setKey i v).key i = v := by
  simp [State.key, State.setKey]

theorem State.key_setKey_other (s : State) (i j : KeyIndex) (v : Word) (h : i ≠ j) : (s.setKey i v).key j = s.key j := by
  have : i.val ≠ j.val := fun e => h (Fin.ext e)
  simp [State.key, State.setKey, Vector.getElem_set_ne, this]

end Sys2Proof.Machine
end

