-- ==== Sys2Proof/Laws/Engine.lean ====
section
/-! SUPPORT. What the shared operations can do, said once: the offer of a command, the engine's step, the block access of the
buffer, and the input of a step. Proofs cite these instead of unfolding the operation. -/

namespace Sys2Proof.Machine

/-! ### Geometry -/

theorem rangeExceeded_eq_false (s : State) : s.rangeExceeded = false ↔ s.bufAddr.toNat + s.bufLen.toNat ≤ 2 ^ 32 := by
  simp [State.rangeExceeded]

theorem rangeExceeded_eq_true (s : State) : s.rangeExceeded = true ↔ 2 ^ 32 < s.bufAddr.toNat + s.bufLen.toNat := by
  simp [State.rangeExceeded]

/-- `CNT` at acceptance is floor(`BUF_LEN` / 8) (R100). -/
theorem blockCount_toNat (s : State) : s.blockCount.toNat = s.bufLen.toNat / 8 := by
  have := s.bufLen.isLt
  simp [State.blockCount, Nat.shiftRight_eq_div_pow]
  omega

/-- Block `j` of a buffer in range starts at `BUF_ADDR + 8j`, with no wrap (R105). -/
theorem blockAddr_toNat {a : Word} {j n : Nat} (h : a.toNat + n ≤ 2 ^ 32) (hj : 8 * j < n) :
    (blockAddr a j).toNat = a.toNat + 8 * j := by
  simp [blockAddr]
  omega

/-! ### Offering a command (R118, R135) -/

/-- While busy a command is `BUSY_WRITE`. -/
theorem offer_of_busy {s : State} {c : Command} {run : State → State} (h : s.phase = .run) :
    s.offer c run = s.raise .busyWrite := by
  simp [State.offer, commandError, State.busy, h]

/-- While idle a buffer command out of range is `RANGE`. -/
theorem offer_of_range {s : State} {c : Command} {run : State → State} (h : s.phase = .idle)
    (hb : usesBuffer c.op = true) (hr : s.rangeExceeded = true) : s.offer c run = s.raise .range := by
  simp [State.offer, commandError, State.busy, h, hb, hr]

/-- While idle any other command is accepted. -/
theorem offer_of_accepted {s : State} {c : Command} {run : State → State} (h : s.phase = .idle)
    (hr : usesBuffer c.op = false ∨ s.rangeExceeded = false) : s.offer c run = run (s.accept c) := by
  rcases hr with hr | hr <;> simp [State.offer, commandError, State.busy, h, hr]

/-- Everything an offer can do: it is turned away with an error, or the engine was idle and it is accepted. -/
theorem offer_cases (s : State) (c : Command) (run : State → State) :
    (∃ e, s.offer c run = s.raise e) ∨
      (s.phase = .idle ∧ (usesBuffer c.op = true → s.rangeExceeded = false) ∧ s.offer c run = run (s.accept c)) := by
  cases h : s.phase with
  | run => exact .inl ⟨_, offer_of_busy h⟩
  | idle =>
    cases hb : usesBuffer c.op with
    | false => exact .inr ⟨rfl, by simp, offer_of_accepted h (.inl hb)⟩
    | true =>
      cases hr : s.rangeExceeded with
      | true => exact .inl ⟨_, offer_of_range h hb hr⟩
      | false => exact .inr ⟨rfl, by simp, offer_of_accepted h (.inr hr)⟩

/-- Everything a write to `CTRL` while idle can do: an error is recorded, or the decoded command is accepted (R118). -/
theorem offerWord_cases (w : Word) (s : State) :
    (∃ e, offerWord w s = s.raise e) ∨ (∃ c, decodeCommand w = .ok c ∧ offerWord w s = s.accept c) := by
  unfold offerWord
  split
  · exact .inl ⟨_, rfl⟩
  · next c hc =>
    rcases offer_cases s c id with ⟨e, h⟩ | ⟨_, _, h⟩
    · exact .inl ⟨e, h⟩
    · exact .inr ⟨c, hc, h⟩

/-! ### The engine's step (R92, R103, R118) -/

/-- The operations that finish in one engine step (R118). -/
def singleStep (op : Opcode) (s : State) : Option State :=
  match op with
  | .round => some (opRound s.ksel s)
  | .subst => some (opSubst s)
  | .add32 => some (opAdd32 s)
  | .addm1 => some (opAddm1 s)
  | .encb => none
  | .decb => none
  | .encode => none
  | .decode => none

/-- Everything an engine step can do, with what it requires. -/
inductive EngineMove (s : State) : State → Prop where
  | idle (h : s.phase = .idle) : EngineMove s s
  | noOperation (h : s.phase = .run) (ho : s.opc = none) : EngineMove s s
  | waits (h : s.bufferBusy = true) (hr : s.request.isSome = true) (hm : s.memReady = false) : EngineMove s s
  | single (op : Opcode) (t : State) (h : s.phase = .run) (ho : s.opc = some op) (ht : singleStep op s = some t) :
      EngineMove s t.complete
  | round (h : s.phase = .run) (hrc : s.rc.toNat < 32)
      (hw : s.opc = some .encb ∨ s.opc = some .decb ∨ (s.bufferBusy = true ∧ s.bph = .rounds)) :
      EngineMove s (roundStep s)
  | finishBlock (h : s.phase = .run) (ho : s.opc = some .encb ∨ s.opc = some .decb) (hrc : 32 ≤ s.rc.toNat) :
      EngineMove s (s.setPair (swapPair s.pair)).complete
  | finishBuffer (h : s.bufferBusy = true) (hp : s.bph = .load) (hc : s.cnt = 0) : EngineMove s s.complete
  | load (h : s.bufferBusy = true) (hp : s.bph = .load) (hc : s.cnt ≠ 0) (hm : s.memReady = true) :
      EngineMove s { s.setPair (loadSeen s.readEarly s.mem s.ptr) with rc := 0, bph := .rounds }
  | swap (h : s.bufferBusy = true) (hp : s.bph = .rounds) (hrc : 32 ≤ s.rc.toNat) :
      EngineMove s { s.setPair (swapPair s.pair) with bph := .store }
  | store (h : s.bufferBusy = true) (hp : s.bph = .store) (hm : s.memReady = true) :
      EngineMove s
        { s with
          mem := storeSome s.storedEarly s.mem s.ptr (blockBytes s.pair) (BitVec.allOnes 8)
          ptr := s.ptr + 8, cnt := s.cnt - 1, bph := .load }

theorem rc_lt_iff (s : State) : s.rc < 32 ↔ s.rc.toNat < 32 := by
  rw [BitVec.lt_def]; rfl

theorem blockCoreStep_moves {s : State} (h : s.phase = .run) (ho : s.opc = some .encb ∨ s.opc = some .decb) :
    EngineMove s (blockCoreStep s) := by
  unfold blockCoreStep
  split
  · next hrc => exact .round h ((rc_lt_iff s).1 hrc) (by tauto)
  · next hrc => exact .finishBlock h ho (Nat.le_of_not_lt fun x => hrc ((rc_lt_iff s).2 x))

theorem bufferStep_moves {s : State} (h : s.bufferBusy = true) : EngineMove s (bufferStep s) := by
  have hrun : s.phase = .run := by
    rw [← State.busy_iff]
    simp only [State.bufferBusy, Bool.and_eq_true] at h
    exact h.1
  unfold bufferStep
  split
  · next hp =>
    split
    · next hc => exact .finishBuffer h hp hc
    · next hc =>
      split
      · next hm => exact .load h hp hc hm
      · next hm =>
        refine .waits h ?_ (by simpa using hm)
        rw [State.request, if_pos h]
        simp only [hp, if_neg hc]
        rfl
  · next hp =>
    split
    · next hrc => exact .round hrun ((rc_lt_iff s).1 hrc) (.inr (.inr ⟨h, hp⟩))
    · next hrc => exact .swap h hp (Nat.le_of_not_lt fun x => hrc ((rc_lt_iff s).2 x))
  · next hp =>
    split
    · next hm => exact .store h hp hm
    · next hm =>
      refine .waits h ?_ (by simpa using hm)
      rw [State.request, if_pos h]
      simp [hp]

/-- Everything an engine step can do. -/
theorem engineStep_moves (s : State) : EngineMove s (engineStep s) := by
  unfold engineStep
  cases h : s.phase with
  | idle => simpa [State.busy, h] using EngineMove.idle h
  | run =>
    have hb : s.busy = true := (State.busy_iff s).2 h
    rw [if_pos hb]
    split
    · next op ho =>
      cases op with
      | encb => exact blockCoreStep_moves h (.inl ho)
      | decb => exact blockCoreStep_moves h (.inr ho)
      | encode => exact bufferStep_moves (by simp [State.bufferBusy, hb, ho, usesBuffer])
      | decode => exact bufferStep_moves (by simp [State.bufferBusy, hb, ho, usesBuffer])
      | round => exact .single .round _ h ho rfl
      | subst => exact .single .subst _ h ho rfl
      | add32 => exact .single .add32 _ h ho rfl
      | addm1 => exact .single .addm1 _ h ho rfl
    · next ho => exact .noOperation h ho

/-- A one-step operation works on the pair only. -/
theorem singleStep_eq {op : Opcode} {s t : State} (h : singleStep op s = some t) : t = s.setPair t.pair := by
  cases op <;> simp only [singleStep, Option.some.injEq, reduceCtorEq] at h <;> subst h <;> rfl

/-- The engine's step while ENCB or DECB is in progress (R92). -/
theorem engineStep_of_blockCore {s : State} (h : s.phase = .run) (ho : s.opc = some .encb ∨ s.opc = some .decb) :
    engineStep s = blockCoreStep s := by
  unfold engineStep
  rw [if_pos ((State.busy_iff s).2 h)]
  rcases ho with ho | ho <;> simp only [ho] <;> rfl

/-- The engine's step while ENCODE or DECODE is in progress (R103). -/
theorem engineStep_of_buffer {s : State} (h : s.bufferBusy = true) : engineStep s = bufferStep s := by
  simp only [State.bufferBusy, Bool.and_eq_true] at h
  unfold engineStep
  rw [if_pos h.1]
  cases ho : s.opc with
  | none => simp [ho] at h
  | some op => cases op <;> simp [ho, usesBuffer] at h <;> rfl

/-- Engine steps one after another. -/
theorem engineSteps_add (m n : Nat) (s : State) : engineSteps (m + n) s = engineSteps n (engineSteps m s) := by
  induction m generalizing s with
  | zero => rw [Nat.zero_add]; rfl
  | succ m ih => rw [Nat.succ_add]; exact ih (engineStep s)

theorem engineSteps_succ (n : Nat) (s : State) : engineSteps (n + 1) s = engineStep (engineSteps n s) :=
  engineSteps_add n 1 s

/-- An idle engine stays as it is (R121). -/
theorem engineStep_of_idle {s : State} (h : s.phase = .idle) : engineStep s = s := by
  simp [engineStep, State.busy, h]

/-- An engine step moves the pair, the sequencer, `BUSY`, `DONE` and the memory only. -/
theorem engineStep_frame (s : State) :
    engineStep s = { s with
      n1 := (engineStep s).n1, n2 := (engineStep s).n2, phase := (engineStep s).phase, done := (engineStep s).done,
      rc := (engineStep s).rc, bph := (engineStep s).bph, ptr := (engineStep s).ptr, cnt := (engineStep s).cnt,
      mem := (engineStep s).mem } := by
  have h := engineStep_moves s
  generalize engineStep s = t at *
  cases h <;> try rfl
  next h => rw [singleStep_eq h]; rfl

/-! ### Blocks of the buffer -/

/-- The bits of a word of four bytes (R7). -/
theorem be32_getLsbD (b3 b2 b1 b0 : Byte) (i : Nat) :
    (be32 b3 b2 b1 b0).getLsbD i =
      if i < 8 then b0.getLsbD i else if i < 16 then b1.getLsbD (i - 8)
      else if i < 24 then b2.getLsbD (i - 16) else b3.getLsbD (i - 24) := by
  have h : BitVec.getLsbD (w := 8 + 8 + 8 + 8) (b3 ++ b2 ++ b1 ++ b0) i =
      if i < 8 then b0.getLsbD i else if i < 16 then b1.getLsbD (i - 8)
      else if i < 24 then b2.getLsbD (i - 16) else b3.getLsbD (i - 24) := by
    rw [BitVec.getLsbD_append, BitVec.getLsbD_append, BitVec.getLsbD_append]
    have e1 : i - 8 - 8 = i - 16 := by omega
    have e2 : i - 16 - 8 = i - 24 := by omega
    rw [e1, e2]
    split_ifs <;> first | rfl | omega
  exact h

theorem byteOf_be32 (w : Word) : be32 (byteOf w 3) (byteOf w 2) (byteOf w 1) (byteOf w 0) = w := by
  apply BitVec.eq_of_getLsbD_eq
  intro i hi
  rw [be32_getLsbD]
  simp only [byteOf, BitVec.getLsbD_extractLsb']
  split_ifs <;> (rw [decide_eq_true (by omega), Bool.true_and]; congr 1; omega)

/-- The bytes of a word of four bytes are those bytes. -/
theorem bytesBe_be32 (b3 b2 b1 b0 : Byte) : bytesBe (be32 b3 b2 b1 b0) = [b3, b2, b1, b0] := by
  simp only [bytesBe, List.cons.injEq, and_true]
  refine ⟨?_, ?_, ?_, ?_⟩ <;>
  · apply BitVec.eq_of_getLsbD_eq
    intro i hi
    simp only [byteOf, BitVec.getLsbD_extractLsb', be32_getLsbD, hi, decide_true, Bool.true_and]
    split_ifs <;> first | omega | (congr 1; omega)

theorem pairOfBytes_blockBytes (p : Pair) : pairOfBytes (blockBytes p) = p := by
  simp [pairOfBytes, blockBytes, bytesBe, byteOf_be32]

theorem memRead_eq_map (m : Memory) (a : Word) (n : Nat) :
    memRead m a n = (List.range n).map fun i => m.read (a + BitVec.ofNat 32 i) := by
  induction n generalizing a with
  | zero => rfl
  | succ n ih =>
    rw [memRead, ih, List.range_succ_eq_map, List.map_cons, List.map_map]
    congr 1
    · simp
    · apply List.map_congr_left
      intro i _
      have : a + BitVec.ofNat 32 (i + 1) = a + 1 + BitVec.ofNat 32 i := by
        rw [BitVec.ofNat_add, BitVec.add_comm (BitVec.ofNat 32 i), ← BitVec.add_assoc]
        rfl
      simp [this]

/-- The bytes of a block of eight bytes are those bytes (R31). -/
theorem blockBytes_loadBlock (m : Memory) (a : Word) : blockBytes (loadBlock m a) = memRead m a 8 := by
  simp [blockBytes, loadBlock, pairOfBytes, memRead, bytesBe_be32]

/-- Blocks that load alike are alike byte by byte. -/
theorem read_eq_of_loadBlock {m m' : Memory} {a a' : Word} (h : loadBlock m a = loadBlock m' a') {i : Nat} (hi : i < 8) :
    m.read (a + BitVec.ofNat 32 i) = m'.read (a' + BitVec.ofNat 32 i) := by
  have e := congrArg blockBytes h
  rw [blockBytes_loadBlock, blockBytes_loadBlock, memRead_eq_map, memRead_eq_map] at e
  have := congrArg (fun l => l[i]?) e
  simpa [hi] using this

/-- A block read depends on its eight bytes only. -/
theorem loadBlock_congr {m m' : Memory} {a : Word}
    (h : ∀ i, i < 8 → m'.read (a + BitVec.ofNat 32 i) = m.read (a + BitVec.ofNat 32 i)) :
    loadBlock m' a = loadBlock m a := by
  have e : memRead m' a 8 = memRead m a 8 := by
    rw [memRead_eq_map, memRead_eq_map]
    exact List.map_congr_left fun i hi => h i (List.mem_range.1 hi)
  rw [loadBlock, loadBlock, e]

/-- Reading the eight bytes of a block that was stored gives its bytes. -/
theorem memRead_storeBlock (m : Memory) (a : Word) (p : Pair) : memRead (storeBlock m a p) a 8 = blockBytes p := by
  rw [memRead_eq_map]
  apply List.ext_getElem
  · simp [blockBytes, bytesBe]
  · intro i h1 h2
    simp only [List.getElem_map, List.getElem_range]
    exact read_memWrite_inside m a (blockBytes p) i h2 (by simp [blockBytes, bytesBe])

/-- Loading what was stored gives it back (R31, R43). -/
theorem loadBlock_storeBlock_same (m : Memory) (a : Word) (p : Pair) : loadBlock (storeBlock m a p) a = p := by
  rw [loadBlock, memRead_storeBlock, pairOfBytes_blockBytes]

/-- A store touches its eight bytes only. -/
theorem read_storeBlock_outside (m : Memory) (a x : Word) (p : Pair)
    (h : ∀ i, i < 8 → x ≠ a + BitVec.ofNat 32 i) : (storeBlock m a p).read x = m.read x :=
  read_memWrite_outside m a x _ (by simpa [blockBytes, bytesBe] using h)

end Sys2Proof.Machine
end

