-- ==== Sys2Proof/Laws/Buffer.lean ====
section
/-! SUPPORT. What the buffer operation does, said once: the blocks it transforms, the bytes it leaves, the pair it ends with,
and that it keeps the canonical form. -/

namespace Sys2Proof.Machine

theorem blockAddr_add (a : Word) (j i : Nat) : blockAddr a j + BitVec.ofNat 32 i = a + BitVec.ofNat 32 (8 * j + i) := by
  rw [blockAddr, BitVec.add_assoc, ← BitVec.ofNat_add]

theorem blockAddr_succ (a : Word) (j : Nat) : blockAddr a j + 8 = blockAddr a (j + 1) := by
  have := blockAddr_add a j 8
  rw [blockAddr] at *
  exact this

/-- Two bytes of blocks that together fill no more than the address space are different bytes. -/
theorem blockByte_ne {a : Word} {j j' i i' : Nat} (hj : 8 * j + i < 2 ^ 32) (hj' : 8 * j' + i' < 2 ^ 32)
    (hi : i < 8) (hi' : i' < 8) (h : j ≠ j') :
    blockAddr a j + BitVec.ofNat 32 i ≠ blockAddr a j' + BitVec.ofNat 32 i' := by
  rw [blockAddr_add, blockAddr_add]
  intro e
  have e := congrArg BitVec.toNat (add_left_cancel e)
  simp only [BitVec.toNat_ofNat, Nat.mod_eq_of_lt hj, Nat.mod_eq_of_lt hj'] at e
  omega

/-- A byte of none of the blocks is left alone (R35, R104). -/
theorem bufferWith_read_outside (T : SboxTables) (key : Key) (d : Direction) (a : Word) (n : Nat) (m : Memory) (p : Pair)
    (x : Word) (h : ∀ j, j < n → ∀ i, i < 8 → x ≠ blockAddr a j + BitVec.ofNat 32 i) :
    (bufferWith T key d a n m p).1.read x = m.read x := by
  induction n with
  | zero => rfl
  | succ n ih =>
    rw [bufferWith, cryptBlockAt, read_storeBlock_outside _ _ _ _ (h n (by omega)), ih fun j hj => h j (by omega)]

/-- Every block is the transform of the old block (R101). -/
theorem bufferWith_block (T : SboxTables) (key : Key) (d : Direction) (a : Word) (n : Nat) (m : Memory) (p : Pair)
    (hn : 8 * n ≤ 2 ^ 32) {j : Nat} (hj : j < n) :
    loadBlock (bufferWith T key d a n m p).1 (blockAddr a j) = cryptWith T key d (loadBlock m (blockAddr a j)) := by
  induction n with
  | zero => omega
  | succ n ih =>
    rw [bufferWith, cryptBlockAt]
    by_cases hjn : j = n
    · subst hjn
      rw [loadBlock_storeBlock_same]
      congr 1
      exact loadBlock_congr fun i hi => bufferWith_read_outside _ _ _ _ _ _ _ _ fun k hk i' hi' =>
        blockByte_ne (by omega) (by omega) hi hi' (by omega)
    · rw [← ih (by omega) (by omega)]
      exact loadBlock_congr fun i hi => read_storeBlock_outside _ _ _ _ fun i' hi' =>
        blockByte_ne (by omega) (by omega) hi hi' hjn

/-- The pair that is left is the result of the last block (R106), or the old pair where there is none (R110). -/
theorem bufferWith_pair (T : SboxTables) (key : Key) (d : Direction) (a : Word) (n : Nat) (m : Memory) (p : Pair)
    (hn : 8 * n ≤ 2 ^ 32) :
    (bufferWith T key d a n m p).2 = if n = 0 then p else cryptWith T key d (loadBlock m (blockAddr a (n - 1))) := by
  cases n with
  | zero => rfl
  | succ n =>
    rw [bufferWith, cryptBlockAt, if_neg (by omega)]
    show cryptWith T key d _ = _
    congr 1
    exact loadBlock_congr fun i hi => bufferWith_read_outside _ _ _ _ _ _ _ _ fun k hk i' hi' =>
      blockByte_ne (by omega) (by omega) hi hi' (by omega)

/-- The buffer operation keeps the canonical form. -/
theorem wf_bufferWith (T : SboxTables) (key : Key) (d : Direction) (a : Word) (n : Nat) {m : Memory} (p : Pair)
    (h : m.wf = true) : (bufferWith T key d a n m p).1.wf = true := by
  induction n with
  | zero => exact h
  | succ n ih => exact wf_storeBlock _ _ ih

/-- An address outside the window is a byte of no full block (R30, R100). -/
theorem ne_of_not_inWindow {s : State} {x : Word} (hr : s.bufAddr.toNat + s.bufLen.toNat ≤ 2 ^ 32)
    (h : s.inWindow x = false) {j i : Nat} (hj : j < s.bufLen.toNat / 8) (hi : i < 8) :
    x ≠ blockAddr s.bufAddr j + BitVec.ofNat 32 i := by
  intro e
  have : x.toNat = s.bufAddr.toNat + (8 * j + i) := by
    rw [e, blockAddr_add]
    simp
    omega
  simp [State.inWindow, this] at h
  omega

/-- A byte of a full block lies in the window (R30, R35, R100). -/
theorem inWindow_of_block {s : State} (hr : s.bufAddr.toNat + s.bufLen.toNat ≤ 2 ^ 32)
    {j i : Nat} (hj : j < s.bufLen.toNat / 8) (hi : i < 8) :
    s.inWindow (blockAddr s.bufAddr j + BitVec.ofNat 32 i) = true := by
  have : (blockAddr s.bufAddr j + BitVec.ofNat 32 i).toNat = s.bufAddr.toNat + (8 * j + i) := by
    rw [blockAddr_add]
    simp
    omega
  simp [State.inWindow, this]
  omega

/-- Every address in the window is a byte of a full block (R30, R100). -/
theorem block_of_inWindow {s : State} {x : Word} (h : s.inWindow x = true) :
    ∃ j i, j < s.bufLen.toNat / 8 ∧ i < 8 ∧ x = blockAddr s.bufAddr j + BitVec.ofNat 32 i := by
  simp [State.inWindow] at h
  refine ⟨(x.toNat - s.bufAddr.toNat) / 8, (x.toNat - s.bufAddr.toNat) % 8, by omega, by omega, ?_⟩
  rw [blockAddr_add, Nat.div_add_mod]
  apply BitVec.eq_of_toNat_eq
  have := x.isLt
  simp
  omega

/-- Everything the buffer operation of an accepted command can do: complete with no block, wait for the memory, or transform
the blocks. -/
theorem runBuffer_cases (s : State) :
    (s.cnt = 0 ∧ runBuffer s = s.complete) ∨
      (s.cnt ≠ 0 ∧ s.memReady = false ∧ runBuffer s = s) ∨
      (s.cnt ≠ 0 ∧ s.memReady = true ∧
        runBuffer s = { s with
          n1 := (bufferWith Config.sbox s.k s.dir s.ptr s.cnt.toNat s.mem s.pair).2.1
          n2 := (bufferWith Config.sbox s.k s.dir s.ptr s.cnt.toNat s.mem s.pair).2.2
          mem := (bufferWith Config.sbox s.k s.dir s.ptr s.cnt.toNat s.mem s.pair).1
          ptr := blockAddr s.ptr s.cnt.toNat, cnt := 0, rc := 32, phase := .idle, done := true }) := by
  unfold runBuffer
  split
  · next h => exact .inl ⟨h, rfl⟩
  · next h =>
    split
    · next hm => exact .inr (.inr ⟨h, hm, rfl⟩)
    · next hm => exact .inr (.inl ⟨h, by simpa using hm, rfl⟩)

end Sys2Proof.Machine
end

