-- ==== Sys2Proof/Laws/Encoding.lean ====
section
/-! SUPPORT. The bits of the two formats (30_encoding.md R45), so that no proof unfolds a concatenation. -/

namespace Sys2Proof

/-- The bits of a transaction `we || addr || wdata` (format T). -/
theorem transaction_getLsbD (we : BitVec 1) (a : BitVec 4) (v : Word) (i : Nat) :
    BitVec.getLsbD (w := 37) (we ++ a ++ v) i =
      if i < 32 then v.getLsbD i else if i < 36 then a.getLsbD (i - 32) else we.getLsbD (i - 36) := by
  have h : BitVec.getLsbD (w := 1 + 4 + 32) (we ++ a ++ v) i =
      if i < 32 then v.getLsbD i else if i < 36 then a.getLsbD (i - 32) else we.getLsbD (i - 36) := by
    rw [BitVec.getLsbD_append, BitVec.getLsbD_append]
    split
    · rfl
    · have e1 : (i - 32 < 4) = (i < 36) := by simp; omega
      have e2 : i - 32 - 4 = i - 36 := by omega
      simp only [e1, e2]
  exact h

/-- The bits of a command word `ZERO || KIDX || OP` (format C). -/
theorem command_getLsbD (z : BitVec 25) (k : BitVec 3) (op : BitVec 4) (i : Nat) :
    BitVec.getLsbD (w := 32) (z ++ k ++ op) i =
      if i < 4 then op.getLsbD i else if i < 7 then k.getLsbD (i - 4) else z.getLsbD (i - 7) := by
  have h : BitVec.getLsbD (w := 25 + 3 + 4) (z ++ k ++ op) i =
      if i < 4 then op.getLsbD i else if i < 7 then k.getLsbD (i - 4) else z.getLsbD (i - 7) := by
    rw [BitVec.getLsbD_append, BitVec.getLsbD_append]
    split
    · rfl
    · have e1 : (i - 4 < 3) = (i < 7) := by simp; omega
      have e2 : i - 4 - 3 = i - 7 := by omega
      simp only [e1, e2]
  exact h

/-- A command word is its three fields. -/
theorem command_fields (c : Word) : c = zeroField c ++ kidxField c ++ opField c := by
  apply BitVec.eq_of_getLsbD_eq
  intro i hi
  rw [command_getLsbD]
  simp only [zeroField, kidxField, opField, BitVec.getLsbD_extractLsb']
  split
  · simp [*]
  · split
    · have : i - 4 < 3 := by omega
      simp [this]
      congr 1
      omega
    · have : i - 7 < 25 := by omega
      simp [this]
      congr 1
      omega

/-- Decoding of a word given by its two lower fields, `ZERO` = 0 (R46, R47). -/
theorem decodeCommand_of_fields (k : BitVec 3) (op : BitVec 4) :
    decodeCommand ((0 : BitVec 25) ++ k ++ op) =
      match Opcode.ofCode op with
      | none => .error .opcodeUnassigned
      | some o => if kidxAllowed op k then .ok ⟨o, k.toFin⟩ else .error .kidxNotZero := by
  revert k op
  decide

end Sys2Proof
end

