-- ==== Sys2Proof/Laws/Events.lean ====
section
/-! SUPPORT. What a write by another agent can do, said once (20_memory.md R36, R38, 70_reset_and_hazards.md R155): the bytes
it leaves, the record of early accesses, and that what the engine sees of a block is settled once it has read it. -/

namespace Sys2Proof.Machine

/-- What the engine sees of a block, byte by byte. -/
theorem memSeen_eq_map (early m : Memory) (a : Word) (n : Nat) :
    memSeen early m a n = (List.range n).map fun i =>
      (lookup early (a + BitVec.ofNat 32 i).toNat).getD (m.read (a + BitVec.ofNat 32 i)) := by
  induction n generalizing a with
  | zero => rfl
  | succ n ih =>
    rw [memSeen, ih, List.range_succ_eq_map, List.map_cons, List.map_map]
    congr 1
    · simp
    · apply List.map_congr_left
      intro i _
      simp only [Function.comp, add_one_add_ofNat, Nat.succ_eq_add_one]

@[simp] theorem length_memRead (m : Memory) (a : Word) (n : Nat) : (memRead m a n).length = n := by
  rw [memRead_eq_map]
  simp

@[simp] theorem length_blockBytes (p : Pair) : (blockBytes p).length = 8 := rfl

/-- Reading some bytes of a block early, from the memory as it is, does not change what the engine sees of the block. -/
theorem loadSeen_readEarly (r m : Memory) (base : Word) (mask : BitVec 8) :
    loadSeen (storeSome r r base (memRead m base 8) mask) m base = loadSeen r m base := by
  unfold loadSeen
  congr 1
  rw [memSeen_eq_map, memSeen_eq_map]
  apply List.map_congr_left
  intro i hi
  have hi : i < 8 := List.mem_range.1 hi
  rw [lookup_storeSome_inside r r base _ mask i (by simpa using hi) (by simp)]
  split
  · next h =>
    simp only [Bool.and_eq_true, Option.isNone_iff_eq_none] at h
    rw [h.2, List.getElem_of_eq (memRead_eq_map m base 8)]
    simp
  · rfl

/-- Once the engine has read all eight bytes of a block, no write to the memory changes what it sees of it (R35: each byte is
read once). -/
theorem loadSeen_of_listsBlock {early : Memory} (m m' : Memory) {base : Word} (h : listsBlock early base = true) :
    loadSeen early m base = loadSeen early m' base := by
  unfold loadSeen
  congr 1
  rw [memSeen_eq_map, memSeen_eq_map]
  apply List.map_congr_left
  intro i hi
  have : (lookup early (base + BitVec.ofNat 32 i).toNat).isSome = true := List.all_eq_true.1 h i hi
  obtain ⟨b, hb⟩ := Option.isSome_iff_exists.1 this
  rw [hb]
  rfl

/-- An address of an unfinished block is a byte of that block. -/
theorem blockOf_of_unfinished {s : State} {a : Word} (h : s.unfinished a = true) :
    ∃ i, i < 8 ∧ a = s.blockOf a + BitVec.ofNat 32 i := by
  simp only [State.unfinished, Bool.and_eq_true, decide_eq_true_eq] at h
  refine ⟨(a.toNat - s.ptr.toNat) % 8, by omega, ?_⟩
  rw [State.blockOf, blockAddr_add, Nat.div_add_mod]
  apply BitVec.eq_of_toNat_eq
  have := a.isLt
  simp
  omega

/-- What part of a block's store leaves at an address: what was there, or the byte of the block. -/
theorem read_storeSome_block (skip m : Memory) (a x : Word) (p : Pair) (mask : BitVec 8) :
    (storeSome skip m a (blockBytes p) mask).read x = m.read x ∨
      ∃ i, i < 8 ∧ x = a + BitVec.ofNat 32 i ∧
        (storeSome skip m a (blockBytes p) mask).read x = (blockBytes p).getD i 0 := by
  by_cases hb : ∃ i, i < 8 ∧ x = a + BitVec.ofNat 32 i
  · obtain ⟨i, hi, rfl⟩ := hb
    have hi' : i < (blockBytes p).length := hi
    rw [read_storeSome_inside skip m a _ mask i hi' (by simp)]
    split
    · exact .inr ⟨i, hi, rfl, by rw [List.getD_eq_getElem _ _ hi']⟩
    · exact .inl rfl
  · exact .inl (read_storeSome_outside _ _ _ _ _ _ fun i hi e => hb ⟨i, hi, e⟩)

/-- A write by another agent touches the memory, the record of early accesses and the counter of free values only. -/
theorem writeByOther_frame (a : Word) (b : Byte) (s : State) :
    writeByOther a b s = { s with
      mem := (writeByOther a b s).mem, readEarly := (writeByOther a b s).readEarly,
      storedEarly := (writeByOther a b s).storedEarly, freeIdx := (writeByOther a b s).freeIdx } := by
  unfold writeByOther workAhead
  split <;> rfl

/-- Where no unfinished block of the engine is hit, the byte is written and nothing else happens (R43). -/
theorem writeByOther_of_finished {s : State} {a : Word} (b : Byte) (h : s.unfinished a = false) :
    writeByOther a b s = { s with mem := s.mem.write a b } := by
  simp [writeByOther, h]

/-- The byte is written (R43, R155). -/
@[simp] theorem writeByOther_read_same (a : Word) (b : Byte) (s : State) : (writeByOther a b s).mem.read a = b := by
  simp [writeByOther]

/-- Every other byte is as it was, or is a byte of the unfinished block that the engine stores early (U6). -/
theorem writeByOther_read_other {s : State} {a x : Word} (b : Byte) (hx : x ≠ a) :
    (writeByOther a b s).mem.read x = s.mem.read x ∨
      (s.unfinished a = true ∧ ∃ i, i < 8 ∧ x = s.blockOf a + BitVec.ofNat 32 i ∧
        (writeByOther a b s).mem.read x = (blockBytes (s.blockResult (s.blockOf a))).getD i 0) := by
  cases h : s.unfinished a with
  | false =>
    rw [writeByOther_of_finished b h]
    exact .inl (Memory.read_write_other _ _ hx)
  | true =>
    simp only [writeByOther, h, if_true, workAhead]
    rw [Memory.read_write_other _ _ hx]
    exact (read_storeSome_block _ _ _ _ _ _).imp id fun h => ⟨trivial, h⟩

/-- A write by another agent keeps the canonical forms. -/
theorem wf_writeByOther (a : Word) (b : Byte) {s : State} (hm : s.mem.wf = true) (hr : s.readEarly.wf = true)
    (hs : s.storedEarly.wf = true) :
    (writeByOther a b s).mem.wf = true ∧ (writeByOther a b s).readEarly.wf = true ∧
      (writeByOther a b s).storedEarly.wf = true := by
  unfold writeByOther workAhead
  split
  · refine ⟨Memory.wf_write _ _ (wf_storeSome _ _ _ _ hm), ?_, wf_storeSome _ _ _ _ hs⟩
    show Memory.wf (if _ then _ else _) = true
    split
    · exact hr
    · exact wf_storeSome _ _ _ _ hr
  · exact ⟨Memory.wf_write _ _ hm, hr, hs⟩

/-- What part of a store lists: an address that was listed, or one of the bytes. -/
theorem lookup_storeSome_cases {skip m : Memory} {a x : Word} {bs : List Byte} {mask : BitVec 8} (hlen : bs.length = 8)
    (h : (lookup (storeSome skip m a bs mask) x.toNat).isSome = true) :
    (lookup m x.toNat).isSome = true ∨ ∃ i, i < 8 ∧ x = a + BitVec.ofNat 32 i := by
  by_cases hx : ∃ i, i < 8 ∧ x = a + BitVec.ofNat 32 i
  · exact .inr hx
  · rw [lookup_storeSome_outside _ _ _ _ _ _ fun i hi e => hx ⟨i, by omega, e⟩] at h
    exact .inl h

/-- What is recorded as accessed early: what was, or a byte of the unfinished block that was hit. -/
theorem writeByOther_early {s : State} {a x : Word} {b : Byte}
    (h : (lookup (writeByOther a b s).readEarly x.toNat).isSome = true ∨
      (lookup (writeByOther a b s).storedEarly x.toNat).isSome = true) :
    (lookup s.readEarly x.toNat).isSome = true ∨ (lookup s.storedEarly x.toNat).isSome = true ∨
      (s.unfinished a = true ∧ ∃ i, i < 8 ∧ x = s.blockOf a + BitVec.ofNat 32 i) := by
  cases hu : s.unfinished a with
  | false =>
    rw [writeByOther_of_finished b hu] at h
    exact h.elim .inl fun h => .inr (.inl h)
  | true =>
    simp only [writeByOther, hu, if_true, workAhead] at h
    rcases h with h | h
    · split at h
      · exact .inl h
      · rcases lookup_storeSome_cases (by simp) h with h | h
        · exact .inl h
        · exact .inr (.inr ⟨rfl, h⟩)
    · rcases lookup_storeSome_cases (by simp) h with h | h
      · exact .inr (.inl h)
      · exact .inr (.inr ⟨rfl, h⟩)

end Sys2Proof.Machine
end

