-- ==== Sys2Proof/Laws/Exec.lean ====
section
/-! SUPPORT. What the execution of an instruction can do, whichever it is. -/

namespace Sys2Proof.Machine

/-- No instruction stops the machine (60_exceptions.md R130, R139). -/
theorem exec_goes_on (i : Instr) (s : State) : ∃ t, exec i s = .next t := by
  cases i <;> exact ⟨_, rfl⟩

/-- While busy an instruction touches `DONE`, the error record and the value read only (44_host_transactions.md R116, R117,
R121). -/
theorem exec_of_busy {s : State} (h : s.phase = .run) (i : Instr) :
    ∃ t, exec i s = .next t ∧
      t = { s with done := t.done, err := t.err, errCode := t.errCode, rdata := t.rdata } := by
  cases i with
  | wr slot v =>
    refine ⟨_, rfl, ?_⟩
    rw [if_pos ((State.busy_iff s).2 h)]
    cases slot <;> rfl
  | rd slot => exact ⟨_, rfl, rfl⟩
  | _ =>
    refine ⟨_, rfl, ?_⟩
    rw [offer_of_busy h]
    rfl

/-- The invariant says nothing of the inputs. -/
theorem inv_inputs {s : State} (inputs : List Input) (h : Inv s) : Inv { s with inputs := inputs } := by
  obtain ⟨h1, h2, h3, h4, h5, h6, h7, h8, h9, h10, h11⟩ := h
  exact ⟨h1, h2, h3, h4, h5, h6, h7, h8, h9, h10, fun hb =>
    have b := h11 hb
    ⟨b.inRange, b.blocksLeft, b.pointer, b.storeAfterRounds, b.earlyInWindow⟩⟩

/-- The block at `PTR` lies in the window while blocks are left (43_simple_replacement.md R103, 20_memory.md R35). -/
theorem pointer_inWindow {s : State} (h : Inv s) (hb : s.bufferBusy = true) (hc : 0 < s.cnt.toNat) :
    s.ptr.toNat + 8 ≤ 2 ^ 32 ∧ ∀ i, i < 8 → s.inWindow (s.ptr + BitVec.ofNat 32 i) = true := by
  have b := h.buffer hb
  have hr := (rangeExceeded_eq_false s).1 b.inRange
  have hl := b.blocksLeft
  rw [b.pointer]
  constructor
  · rw [blockAddr_toNat hr (by omega)]
    omega
  · intro i hi
    exact inWindow_of_block hr (by omega) hi

/-- An unfinished block lies in the window (20_memory.md R35). -/
theorem blockOf_inWindow {s : State} (h : Inv s) {a : Word} (hu : s.unfinished a = true) {i : Nat} (hi : i < 8) :
    s.inWindow (s.blockOf a + BitVec.ofNat 32 i) = true := by
  simp only [State.unfinished, State.owns, Bool.and_eq_true, decide_eq_true_eq] at hu
  have b := h.buffer hu.1.1.1
  have hl := b.blocksLeft
  have e : s.blockOf a =
      blockAddr s.bufAddr (s.bufLen.toNat / 8 - s.cnt.toNat + (a.toNat - s.ptr.toNat) / 8) := by
    have := blockAddr_add s.bufAddr (s.bufLen.toNat / 8 - s.cnt.toNat) (8 * ((a.toNat - s.ptr.toNat) / 8))
    rw [← b.pointer, ← Nat.mul_add] at this
    exact this
  rw [e]
  exact inWindow_of_block ((rangeExceeded_eq_false s).1 b.inRange) (by omega) hi

/-- The engine's step neither sees nor moves the inputs. -/
theorem engineStep_inputs (s : State) (l : List Input) :
    engineStep { s with inputs := l } = { engineStep s with inputs := l } := by
  unfold engineStep
  have hb : State.busy { s with inputs := l } = s.busy := rfl
  rw [hb]
  split
  · simp only
    split
    · next op _ =>
      cases op <;> simp only [operationStep, blockCoreStep, bufferStep] <;> (try rfl) <;> (repeat' split) <;> rfl
    · rfl
  · rfl

theorem engineSteps_inputs (n : Nat) (s : State) (l : List Input) :
    engineSteps n { s with inputs := l } = { engineSteps n s with inputs := l } := by
  induction n generalizing s with
  | zero => rfl
  | succ n ih =>
    show engineSteps n (engineStep { s with inputs := l }) = _
    rw [engineStep_inputs, ih]
    rfl

/-- What the engine will store to a block does not depend on the inputs. -/
@[simp] theorem blockResult_inputs (s : State) (l : List Input) (base : Word) :
    State.blockResult { s with inputs := l } base = s.blockResult base := by
  unfold State.blockResult finishBlock
  rw [engineSteps_inputs]
  rfl

/-- The first of several steps. -/
theorem runSteps_succ {s t : State} (n : Nat) (h : step s = .next t) : runSteps (n + 1) s = runSteps n t := by
  rw [runSteps, h]

/-- A step on a form that decodes (R45, R121). -/
theorem step_present {s : State} {f : Form} {rest : List Input} {i : Instr} (h : s.inputs = .present f :: rest)
    (hd : decode f = .ok i) : step s = exec i { s with inputs := rest } := by
  simp [step, runNext, h, takeInput, presentForm, hd]

/-- Steps on engine items are engine steps. -/
theorem runSteps_engine (n m : Nat) {s : State} {rest : List Input} (h : s.inputs = List.replicate n .engine ++ rest) :
    runSteps (n + m) s = runSteps m { engineSteps n s with inputs := rest } := by
  induction n generalizing s with
  | zero =>
    rw [Nat.zero_add]
    have h : s.inputs = rest := by simpa using h
    subst h
    rfl
  | succ n ih =>
    have e : step s = .next (engineStep { s with inputs := List.replicate n .engine ++ rest }) := by
      simp [step, runNext, h, List.replicate_succ, takeInput]
    rw [Nat.add_right_comm, runSteps_succ _ e, ih (by rw [engineStep_inputs]), engineStep_inputs, engineSteps_inputs]
    rfl

end Sys2Proof.Machine
end

