-- ==== Sys2Proof/Laws/PerInstr.lean ====
section
/-! SUPPORT. A statement for all instructions, made per instruction: the encoding of each instruction is its row of
spec/opcode_table.json (30_encoding.md R45, R47). -/

namespace Sys2Proof.Laws.TableRow

/-- The row of an instruction in spec/opcode_table.json: width, mask, match. -/
def row : Instr → Nat × Nat × Nat
  | .encb => (32, 0xFFFFFFFF, 0x00000001)
  | .decb => (32, 0xFFFFFFFF, 0x00000002)
  | .encode => (32, 0xFFFFFFFF, 0x00000003)
  | .decode => (32, 0xFFFFFFFF, 0x00000004)
  | .round _ => (32, 0xFFFFFF8F, 0x00000005)
  | .subst => (32, 0xFFFFFFFF, 0x00000006)
  | .add32 => (32, 0xFFFFFFFF, 0x00000007)
  | .addm1 => (32, 0xFFFFFFFF, 0x00000008)
  | .wr _ _ => (37, 0x1000000000, 0x1000000000)
  | .rd _ => (37, 0x1000000000, 0x0000000000)

/-- The width of a form in bits and its number (bit 0 the least significant). -/
def bits : Form → Nat × Nat
  | .command c => (32, c.toNat)
  | .transaction t => (37, t.toNat)

/-- The encoding of an instruction has the width of its row, and under the row's mask it is the row's match. -/
def Statement (i : Instr) : Prop :=
  (bits (encode i)).1 = (row i).1 ∧ (bits (encode i)).2 &&& (row i).2.1 = (row i).2.2

theorem encb : Statement .encb :=
  ⟨rfl, by decide⟩

theorem decb : Statement .decb :=
  ⟨rfl, by decide⟩

theorem encode : Statement .encode :=
  ⟨rfl, by decide⟩

theorem decode : Statement .decode :=
  ⟨rfl, by decide⟩

theorem round (k : KeyIndex) : Statement (.round k) :=
  ⟨rfl, by revert k; decide⟩

theorem subst : Statement .subst :=
  ⟨rfl, by decide⟩

theorem add32 : Statement .add32 :=
  ⟨rfl, by decide⟩

theorem addm1 : Statement .addm1 :=
  ⟨rfl, by decide⟩

/-- Bit 36 alone tells a write from a read. -/
theorem transaction_and_mask (we : BitVec 1) (slot : Slot) (v : Word) :
    (transactionBits we slot v).toNat &&& 0x1000000000 = we.toNat * 0x1000000000 := by
  have h : transactionBits we slot v &&& 0x1000000000#37 = we.setWidth 37 <<< 36 := by
    apply BitVec.eq_of_getLsbD_eq
    intro i hi
    have hm : (0x1000000000#37).getLsbD i = decide (i = 36) := by
      have : ∀ j : Fin 37, (0x1000000000#37).getLsbD j.val = decide (j.val = 36) := by decide
      exact this ⟨i, hi⟩
    rw [BitVec.getLsbD_and, hm, transactionBits, transaction_getLsbD, BitVec.getLsbD_shiftLeft]
    by_cases h36 : i = 36
    · subst h36
      simp
    · have : i < 36 := by omega
      simp [h36, this]
  have e := congrArg BitVec.toNat h
  rw [BitVec.toNat_and] at e
  have hw : (we.setWidth 37 <<< 36 : BitVec 37).toNat = we.toNat * 0x1000000000 := by
    clear h e
    revert we
    decide
  rw [hw] at e
  exact e

theorem wr (slot : Slot) (v : Word) : Statement (.wr slot v) :=
  ⟨rfl, transaction_and_mask 1 slot v⟩

theorem rd (slot : Slot) : Statement (.rd slot) :=
  ⟨rfl, transaction_and_mask 0 slot 0⟩

end Sys2Proof.Laws.TableRow
end

