-- ==== Sys2Proof/Tests/Slice0.lean ====
section
/-! SUPPORT. The model's own tests: ill-formed terms that the checks refuse, words written out from the spec's encodings, the
worked values of 95_test_vectors.md, and for every statement with hypotheses a state and operands that meet them. -/

namespace Sys2Proof.Tests

open Sys2Proof Sys2Proof.Machine

/-! ### Small states -/

/-- The demo key `KD` of 95_test_vectors.md. -/
def keyD : Key := #v[0x0123, 0x4567, 0x89AB, 0xCDEF, 0x0123, 0x4567, 0x89AB, 0xCDEF]

/-- Idle, with the demo key and the block "Hello wo". -/
def loaded : State := { State.reset with k := keyD, n1 := 0x48656C6C, n2 := 0x6F20776F }

/-- Idle, with the pair given. -/
def withPair (a b : Word) : State := { State.reset with n1 := a, n2 := b }

/-- Idle, with the buffer registers given. -/
def withBuf (a len : Word) : State := { loaded with bufAddr := a, bufLen := len }

/-- An ENCB just accepted. -/
def busyEncb : State := loaded.accept ⟨.encb, 0⟩

/-- A SUBST just accepted. -/
def busySubst : State := loaded.accept ⟨.subst, 0⟩

/-- An ENCODE of two blocks at 0x1000 just accepted. -/
def busyEncode : State := (withBuf 0x1000 16).accept ⟨.encode, 0⟩

/-- That ENCODE about to run its first round. -/
def inRounds : State := { busyEncode with bph := .rounds, rc := 0 }

/-- That ENCODE about to store its first block, over a zero byte. -/
def inStore : State := { busyEncode with bph := .store, rc := 32, n1 := 0xFF000000, mem := [(0x1000, 0)] }

/-- Idle with an error recorded. -/
def withError : State := { loaded with err := true, errCode := 1 }

/-- The state an instruction answers, or the old one where it answers none. -/
def after (i : Instr) (s : State) : State :=
  match exec i s with
  | .next t => t
  | .fault _ => s
  | .refused _ => s

/-- The state a step answers, or the old one where it answers none. -/
def stepped (s : State) : State :=
  match step s with
  | .next t => t
  | .fault _ => s
  | .refused _ => s

/-! ### Well-formedness: each check refuses an ill-formed term -/

theorem test_wf_zero_field : legalWord 0x00000081 = false := by decide
theorem test_wf_zero_field_top : legalWord 0x80000001 = false := by decide
theorem test_wf_opcode_zero : legalWord 0x00000000 = false := by decide
theorem test_wf_opcode_nine : legalWord 0x00000009 = false := by decide
theorem test_wf_kidx : legalWord 0x00000011 = false := by decide
theorem test_wf_round_kidx : legalWord 0x00000075 = true := by decide
theorem test_wf_command : Command.wellFormed ⟨.encb, 1⟩ = false := by decide
theorem test_wf_command_round : Command.wellFormed ⟨.round, 7⟩ = true := by decide

/-! ### Decoding: words written out bit by bit (30_encoding.md R45, R47) -/

theorem test_decode_encb : decode (.command 0b0000000000000000000000000_000_0001) = .ok .encb := by decide
theorem test_decode_decb : decode (.command 0b0000000000000000000000000_000_0010) = .ok .decb := by decide
theorem test_decode_encode : decode (.command 0b0000000000000000000000000_000_0011) = .ok .encode := by decide
theorem test_decode_decode : decode (.command 0b0000000000000000000000000_000_0100) = .ok .decode := by decide
theorem test_decode_round3 : decode (.command 0b0000000000000000000000000_011_0101) = .ok (.round 3) := by decide
theorem test_decode_subst : decode (.command 0b0000000000000000000000000_000_0110) = .ok .subst := by decide
theorem test_decode_add32 : decode (.command 0b0000000000000000000000000_000_0111) = .ok .add32 := by decide
theorem test_decode_addm1 : decode (.command 0b0000000000000000000000000_000_1000) = .ok .addm1 := by decide
/-- `WR KEY3, 0xDEADBEEF` (V11). -/
theorem test_decode_wr :
    decode (.transaction 0b1_0011_11011110101011011011111011101111) = .ok (.wr (.key 3) 0xDEADBEEF) := by decide
/-- `RD DATA1`; the data bits of a read are ignored. -/
theorem test_decode_rd : decode (.transaction 0b0_1001_00000000000000000000000000000001) = .ok (.rd .data1) := by decide
/-- V13: 0x00000016 is SUBST with `KIDX` = 1, illegal; 0x00000080 has bit 7 set; 0x000000C5 selects nothing. -/
theorem test_reject_words :
    decode (.command 0x00000016) = .error .kidxNotZero ∧ decode (.command 0x00000080) = .error .zeroFieldSet ∧
      decode (.command 0x000000C5) = .error .zeroFieldSet := by decide
theorem test_table_word_round : decodeTableWord 32 0x00000065 = some (.round 6) := by decide
theorem test_table_word_wr : decodeTableWord 40 0x1A00001000 = some (.wr .bufAddr 0x00001000) := by decide
theorem test_table_word_too_wide : decodeTableWord 40 0x2000000000 = none := by decide
theorem test_script_ldpair : scriptLdpair (0x48656C6C, 0x6F20776F) =
    [.present (.transaction 0x1848656C6C), .present (.transaction 0x196F20776F)] := by decide
theorem test_script_cmd : scriptCmd ⟨.round, 7⟩ = [.present (.transaction 0x1C00000075)] := by decide

/-! ### Primitives (V3 to V7) -/

/-- The table set `T_Z` of 95_test_vectors.md, from its packed words. -/
def tablesZ : SboxTables := fun j t x =>
  let packed : BitVec 64 :=
    match j, t with
    | 0, 0 => 0x1F307D8E9B5A264C
    | 0, 1 => 0xF0DB74E1C5A93286
    | 1, 0 => 0x069C471EDAF2853B
    | 1, 1 => 0xB9E35A076F4D128C
    | 2, 0 => 0xC24BE390D618A5F7
    | 2, 1 => 0x0E34187BAC296FD5
    | 3, 0 => 0x73AD0B4FC19652E8
    | 3, 1 => 0x2BC96AF43850DE71
  (extractA packed x).setWidth 4

/-- V4, worked by hand there. -/
theorem test_substitute_z : substituteWith tablesZ 0x01829732 = 0x1EB50D36 := by decide
/-- V4: each lane through its own table. -/
theorem test_substitute_lanes :
    substituteWith tablesZ 0x0000000F = 0x1857CB61 ∧ substituteWith tablesZ 0x000000F0 = 0x1857CBFC ∧
      substituteWith tablesZ 0x0F000000 = 0x1757CB6C ∧ substituteWith tablesZ 0xF0000000 = 0x2857CB6C := by decide
/-- V4: the two extraction strategies on a packed word of `T_Z`. -/
theorem test_extraction : extractA 0x1F307D8E9B5A264C 2 = 6 ∧ extractB 0x1F307D8E9B5A264C 2 = 6 ∧
    extractB 0x1F307D8E9B5A264C 15 = 1 := by decide
/-- V5. -/
theorem test_rotl : rotl32 0x01829732 11 = 0x14B9900C ∧ rotl32 0x12345678 11 = 0xA2B3C091 := by decide
theorem test_xor : xor32 0x6F20776F 0x2B6C7A43 = 0x444C0D2C := by decide
/-- V3: the boundary and the largest pair. -/
theorem test_addm1_boundary : addMod32Minus1 0x7FFFFFFF 0x80000000 = 0 ∧ addMod32Minus1 0x80000000 0x80000000 = 1 ∧
    addMod32Minus1 0xFFFFFFFF 0xFFFFFFFF = 0xFFFFFFFF := by decide
/-- V6: `k` = 5 with `T_Z`, `k` = 3 with `T_ID` (the addition wraps). -/
theorem test_round_z : roundWith tablesZ keyD 5 (0x11111111, 0x22222222) = (0xD87451D4, 0x11111111) := by decide
theorem test_round_id : roundWith tablesId keyD 3 (0xFFFFFFFF, 0xFFFFFFFF) = (0xF9908FFF, 0xFFFFFFFF) := by decide
/-- V7, boundary indices. -/
theorem test_sched : (sched .encrypt 23, sched .encrypt 24, sched .encrypt 31) = (7, 7, 0) ∧
    (sched .decrypt 7, sched .decrypt 8, sched .decrypt 9, sched .decrypt 31) = (7, 7, 6, 0) := by decide

/-! ### Blocks and buffers (V8 to V10) -/

/-- V8, the pair after round 8 and the final result, with `T_Z`. -/
theorem test_rounds_z : roundsWith tablesZ keyD .encrypt 9 (0x48656C6C, 0x6F20776F) = (0x86E5D43C, 0x582F362E) := by decide
theorem test_encb_z : cryptWith tablesZ keyD .encrypt (0x48656C6C, 0x6F20776F) = (0x2D54A664, 0xB1983259) := by decide
theorem test_decb_z : cryptWith tablesZ keyD .decrypt (0x48656C6C, 0x6F20776F) = (0x30514B0C, 0x294B5030) := by decide
/-- The 19 bytes of V10 (b) and P2 at 0x1000, with guard bytes. -/
def messageMemory : Memory :=
  memWrite [] 0x0FFF [0xAA, 0x48, 0x65, 0x6C, 0x6C, 0x6F, 0x20, 0x77, 0x6F, 0x72, 0x6C, 0x64, 0x2C, 0x20, 0x74, 0x68, 0x69,
    0x73, 0x20, 0x69, 0xBB]
/-- V10 (b) and P2, with `T_ID`. -/
theorem test_encode_19_bytes :
    memRead (bufferWith tablesId keyD .encrypt 0x1000 2 messageMemory (0, 0)).1 0x0FFF 21 =
      [0xAA, 0x13, 0x99, 0x11, 0x84, 0x42, 0x10, 0x9F, 0xA4, 0x4C, 0x80, 0x5D, 0x88, 0x98, 0x8F, 0x06, 0x47,
        0x73, 0x20, 0x69, 0xBB] := by decide
theorem test_load_block : loadBlock messageMemory 0x1000 = (0x48656C6C, 0x6F20776F) := by decide
/-- A block may wrap only where no rule lets it be used; the bytes themselves go round (R7). -/
theorem test_memory_wraps : (memWrite [] 0xFFFFFFFF [1, 2]).read 0 = 2 := by decide
theorem test_memory_canonical : (messageMemory.write 0x1000 0).wf = true := by decide
theorem test_memory_write_replaces : Memory.write [(3, 1), (5, 7)] 5 0 = [(3, 1), (5, 0)] := by decide
/-- R35: a byte read early is not read again, one stored early not stored again. -/
theorem test_seen_early : memSeen [(0x1001, 0x77)] messageMemory 0x1000 3 = [0x48, 0x77, 0x6C] := by decide
theorem test_store_skips_early : storeSome [(0x1001, 0x77)] [] 0x1000 [1, 2, 3] 0b101 = [(0x1000, 1), (0x1002, 3)] ∧
    storeSome [(0x1000, 0x77)] [] 0x1000 [1, 2] 0xFF = [(0x1001, 2)] := by decide
theorem test_reset_memory_wf : State.reset.mem.wf = true := by decide

/-! ### Instructions (V3, V5, V10 (d) and (e), V11, P4) -/

theorem test_add32_wraps : (after .add32 (withPair 0xFFFFFFFF 1)).n1 = 0 := by decide
theorem test_add32_flags : (after .add32 (withPair 0xFFFFFFFF 1)).statusWord = 0x00000002 := by decide
theorem test_addm1_zero : (after .addm1 (withPair 0xFFFFFFFE 1)).pair = (0, 1) := by decide
theorem test_addm1_status : (after .addm1 (withPair 1 0xE)).pair = (0xF, 0xE) := by decide
theorem test_subst_keeps_n2 : (after .subst (withPair 0x01829732 0xDEADBEEF)).n2 = 0xDEADBEEF := by decide
theorem test_subst_busy : (after .subst busyEncb).statusWord = 0x00000025 := by decide
theorem test_round_moves_n1 : (after (.round 0) loaded).n2 = 0x48656C6C := by decide
theorem test_round_busy : (after (.round 0) busyEncb).n2 = 0x6F20776F := by decide
theorem test_encb_status : (after .encb loaded).statusWord = 0x00000002 := by decide
theorem test_encb_keeps_key : (after .encb loaded).k = keyD := by decide
theorem test_decb_status : (after .decb loaded).statusWord = 0x00000002 := by decide
theorem test_decb_busy : (after .decb busyEncb).pair = loaded.pair := by decide
/-- V10 (d). -/
theorem test_decode_no_block :
    (after .decode { withPair 0x11 0x22 with bufAddr := 0x2000, bufLen := 7 }).pair = (0x11, 0x22) := by decide
theorem test_decode_no_block_status :
    (after .decode { withPair 0x11 0x22 with bufAddr := 0x2000, bufLen := 7 }).statusWord = 0x00000002 := by decide
/-- V10 (e): one byte past the top. -/
theorem test_encode_range : (after .encode (withBuf 0xFFFFFFF8 9)).statusWord = 0x00000034 := by decide
theorem test_encode_range_short : (after .encode (withBuf 0xFFFFFFFF 2)).statusWord = 0x00000034 := by decide
/-- V10 (e): the largest buffer is accepted, with its 536870911 blocks. -/
theorem test_wr_ctrl_encode_cnt : (after (.wr .ctrl 3) (withBuf 0x00000001 0xFFFFFFFF)).cnt = 0x1FFFFFFF := by decide
/-- P4, line 4: the first error is kept. -/
theorem test_wr_first_error_kept :
    (after (.wr .ctrl 3) { withBuf 0xFFFFFFF8 9 with err := true, errCode := 1 }).statusWord = 0x00000014 := by decide
/-- V11, result hidden while busy; key readable. -/
theorem test_rd_hidden : (after (.rd .data0) busyEncb).rdata = 0 := by decide
theorem test_rd_key_busy : (after (.rd (.key 3)) busyEncb).rdata = 0x0000CDEF := by decide

/-! ### Steps -/

/-- One engine step of R92 touches `RC` only beside the pair. -/
theorem test_engine_round : (engineStep busyEncb).rc = 1 ∧ (engineStep busyEncb).n2 = 0x48656C6C := by decide
theorem test_engine_store_ptr : (engineStep inStore).ptr = 0x1008 ∧ (engineStep inStore).cnt = 1 := by decide
/-- V11, reset during an operation. -/
theorem test_reset_during :
    (stepped { busyEncb with inputs := [.reset] }).statusWord = 0 ∧
      (stepped { busyEncb with inputs := [.reset] }).k = Vector.replicate 8 0 := by decide
/-- R155: another agent's write into the window of a running ENCODE is done, and the engine stays busy. -/
theorem test_other_in_window : (writeByOther 0x100F 1 busyEncode).mem.read 0x100F = 1 ∧
    (writeByOther 0x100F 1 busyEncode).phase = .run := by
  refine ⟨Memory.read_write_same _ _ _, ?_⟩
  decide
theorem test_other_outside : (stepped { busyEncode with inputs := [.memWrite 0x1010 1] }).mem.read 0x1010 = 1 := by decide
theorem test_fetch_word : step (State.reset.withFetchWord 32 0x00000007) = exec .add32 State.reset := by rfl
theorem test_fetch_wr : step (State.reset.withFetchWord 40 0x1848656C6C) = exec (.wr .data0 0x48656C6C) State.reset := by rfl

/-! ### Witnesses: states and operands that meet the hypotheses of each statement -/

/-- A state meets the invariant in the middle of a buffer operation. -/
theorem inv_inStore : Inv inStore where
  memCanonical := by decide
  earlyCanonical := by decide
  busyNotDone := by decide
  codeIffError := by decide
  codeAssigned := by decide
  roundsAtMost32 := by decide
  busyHasOperation := by decide
  directionLatched := by decide
  subkeyOnlyForRound := by decide
  blockInProgress := by decide
  buffer := fun _ => ⟨by decide, by decide, by decide, by decide, fun _ h => h.elim (fun h => nomatch (show false = true from h))
    fun h => nomatch (show false = true from h)⟩

theorem witness_EncodeOfDecode_command : decode (.command 0x00000075) = .ok (.round 7) := by decide
theorem witness_EncodeOfDecode_read : decode (.transaction 0x0FFFFFFFFF) = .ok (.rd .reservedF) ∧
    encode (.rd .reservedF) ≠ .transaction 0x0FFFFFFFFF := by decide
theorem witness_ExactlyFifteenLegalWords : (0x00000016 : Word) ∉
    [0x01, 0x02, 0x03, 0x04, 0x05, 0x15, 0x25, 0x35, 0x45, 0x55, 0x65, 0x75, 0x06, 0x07, (0x08 : Word)] ∧
    loaded.phase = .idle := by decide
theorem witness_AddModTwoToThe32MinusOne : (0xFFFFFFFE : Word).toNat + (0 : Word).toNat ≤ 0xFFFFFFFE ∧
    0xFFFFFFFF ≤ (0xFFFFFFFE : Word).toNat + (1 : Word).toNat := by decide
theorem witness_RotationByEleven : rotl32 0x80000000 11 = 0x00000400 ∧ (0x80000000 : Word).getLsbD 31 = true := by decide
theorem witness_idle : loaded.phase = .idle ∧ State.reset.phase = .idle ∧ withError.phase = .idle := by decide
theorem witness_busy : busyEncb.phase = .run ∧ busySubst.phase = .run ∧ busyEncode.phase = .run := by decide
/-- SubstCompletes, Add32Completes, Addm1Completes, RoundCompletes, EncbCompletes, DecbCompletes: idle, busy, illegal word. -/
theorem witness_ProtocolHolds : loaded.phase = .idle ∧ busyEncb.phase = .run ∧ legalWord 0x00000016 = false := by decide
theorem witness_DecbCompletes_equalKey : ∀ i : KeyIndex, (Vector.replicate 8 0x01010101 : Key)[i] = 0x01010101 := by decide
theorem witness_KeyScheduleRangesMirrorBits : (23 ≤ 23) ∧ (24 ≤ 24 ∧ 24 ≤ 31) ∧ (7 ≤ 7) ∧ (8 ≤ 8 ∧ 8 ≤ 31) ∧ 31 ≤ 31 := by
  decide
theorem witness_ThirtyTwoRoundsAgainstOneBlock : loaded.phase = .idle := by decide
/-- EncodeTransformsTheWindow, DecodeTransformsTheWindow: a buffer that ends exactly at the top. -/
theorem witness_Transforms_top : (withBuf 0xFFFFFFF8 8).phase = .idle ∧
    (withBuf 0xFFFFFFF8 8).bufAddr.toNat + (withBuf 0xFFFFFFF8 8).bufLen.toNat = 2 ^ 32 ∧
    (withBuf 0xFFFFFFF8 8).memReady = true := by decide
/-- The same, with no full block and a memory that does not answer. -/
theorem witness_Transforms_noBlock : (withBuf 0x2000 7).phase = .idle ∧
    { withBuf 0x2000 7 with memReady := false }.bufLen.toNat < 8 ∧
    { withBuf 0x2000 7 with memReady := false }.bufAddr.toNat + 7 ≤ 2 ^ 32 := by decide
/-- The same, one byte past the top. -/
theorem witness_Transforms_range : (withBuf 0xFFFFFFF8 9).phase = .idle ∧
    2 ^ 32 < (withBuf 0xFFFFFFF8 9).bufAddr.toNat + (withBuf 0xFFFFFFF8 9).bufLen.toNat := by decide
theorem witness_RangeIsCheckedAtTheCommand :
    2 ^ 32 < (withBuf 0x00000002 0xFFFFFFFF).bufAddr.toNat + (withBuf 0x00000002 0xFFFFFFFF).bufLen.toNat ∧
    (withBuf 0x00000001 0xFFFFFFFF).bufAddr.toNat + (withBuf 0x00000001 0xFFFFFFFF).bufLen.toNat ≤ 2 ^ 32 ∧
    0x1FFFFFFE < (withBuf 0x00000001 0xFFFFFFFF).bufLen.toNat / 8 := by decide
theorem witness_NoFullBlockCompletes : (withBuf 0xFFFFFFF9 7).bufLen.toNat < 8 ∧
    (withBuf 0xFFFFFFF9 7).bufAddr.toNat + (withBuf 0xFFFFFFF9 7).bufLen.toNat ≤ 2 ^ 32 ∧
    exec (.wr .ctrl 3) (withBuf 0xFFFFFFF9 7) = .next (after (.wr .ctrl 3) (withBuf 0xFFFFFFF9 7)) ∧
    exec (.wr .ctrl 4) (withBuf 0xFFFFFFF9 7) = .next (after (.wr .ctrl 4) (withBuf 0xFFFFFFF9 7)) :=
  ⟨by decide, by decide, rfl, rfl⟩
/-- Two buffers of different length and place with an equal block. -/
theorem witness_EqualBlocksGiveEqualBlocks :
    exec .encode { withBuf 0x1000 19 with mem := messageMemory } =
      .next (after .encode { withBuf 0x1000 19 with mem := messageMemory }) ∧
    exec .encode { withBuf 0x0FF8 16 with mem := messageMemory } =
      .next (after .encode { withBuf 0x0FF8 16 with mem := messageMemory }) ∧
    loadBlock messageMemory (blockAddr 0x1000 0) = loadBlock messageMemory (blockAddr 0x0FF8 1) ∧
    1 < (16 : Word).toNat / 8 :=
  ⟨rfl, rfl, by decide, by decide⟩
theorem witness_BufferRoundTrip : (withBuf 0x1000 19).bufAddr.toNat + (withBuf 0x1000 19).bufLen.toNat ≤ 2 ^ 32 ∧
    (withBuf 0x1000 19).memReady = true ∧ (withBuf 0xFFFFFFF8 8).bufLen = 8 ∧
    (withBuf 0xFFFFFFF8 8).bufAddr.toNat + 8 ≤ 2 ^ 32 := by decide
theorem witness_WriteWhileBusy : busyEncb.phase = .run ∧ Slot.ctrl.number.toNat ≤ 0xC ∧ Slot.reservedE.number = 0xE ∧
    Slot.reservedF.number = 0xF ∧ Slot.status.number = 0xD := by decide
theorem witness_CommandIsAccepted : legalWord 0x00000013 = false ∧
    decodeCommand 0x00000003 = .ok ⟨.encode, 0⟩ ∧ decodeCommand 0x00000075 = .ok ⟨.round, 7⟩ ∧
    decodeCommand 0x00000002 = .ok ⟨.decb, 0⟩ ∧
    2 ^ 32 < (withBuf 0xFFFFFFF8 9).bufAddr.toNat + (withBuf 0xFFFFFFF8 9).bufLen.toNat := by decide
theorem witness_EngineStepCompletesWithDone : busySubst.phase = .run ∧ (engineStep busySubst).phase = .idle ∧
    (engineStep busyEncb).phase = busyEncb.phase ∧ loaded.phase = .idle := by decide
theorem witness_BlockCoreSequencer : busyEncb.phase = .run ∧ busyEncb.opc = some .encb ∧ busyEncb.rc.toNat < 32 ∧
    { busyEncb with rc := 32 }.rc = 32 := by decide
theorem witness_BufferSequencer : busyEncode.phase = .run ∧ busyEncode.opc = some .encode ∧ busyEncode.memReady = true ∧
    (busyEncode.bph = .load ∧ 0 < busyEncode.cnt.toNat) ∧
    ({ busyEncode with cnt := 0 }.bph = .load ∧ { busyEncode with cnt := 0 }.cnt.toNat = 0) ∧
    (inRounds.bph = .rounds ∧ inRounds.rc.toNat < 32) ∧ { inRounds with rc := 32 }.rc = 32 ∧ inStore.bph = .store ∧
    busyEncode.readEarly = [] ∧ inStore.storedEarly = [] := by
  decide
/-- SmallStepsReachTheBigStep and RunByTransactionsIsRunWhole. -/
theorem witness_SmallStepsReachTheBigStep : Command.wellFormed ⟨.encode, 0⟩ = true ∧ Command.wellFormed ⟨.round, 7⟩ = true ∧
    (withBuf 0x1000 16).phase = .idle ∧ (withBuf 0x1000 16).memReady = true ∧
    (withBuf 0x1000 16).bufAddr.toNat + (withBuf 0x1000 16).bufLen.toNat ≤ 2 ^ 32 := by decide
theorem witness_AcceptedOperationCompletes : (withBuf 0x1000 16).memReady = true ∧
    70 < stepCount .encode ((withBuf 0x1000 16).bufLen.toNat / 8) := by decide
theorem witness_HostCannotDisturbTheOperation : busyEncode.phase = .run ∧
    exec (.wr .data0 0x55555555) busyEncode = .next (after (.wr .data0 0x55555555) busyEncode) :=
  ⟨by decide, rfl⟩
theorem witness_ReadsWhileBusyHideTheWork : busyEncb.phase = .run ∧ { busyEncb with n1 := 1, rc := 5 }.phase = .run ∧
    exec (.rd .data0) busyEncb = .next (after (.rd .data0) busyEncb) ∧
    exec (.rd .data0) { busyEncb with n1 := 1, rc := 5 } = .next (after (.rd .data0) { busyEncb with n1 := 1, rc := 5 }) :=
  ⟨by decide, by decide, rfl, rfl⟩
theorem witness_ErrorPriority : busyEncb.err = false ∧ busyEncb.phase = .run ∧ Slot.ctrl.number.toNat ≤ 0xC ∧
    (withBuf 0xFFFFFFF8 9).err = false ∧ legalWord 0x00000013 = false ∧ legalWord 0x00000008 = true ∧
    2 ^ 32 < (withBuf 0xFFFFFFF8 9).bufAddr.toNat + (withBuf 0xFFFFFFF8 9).bufLen.toNat := by decide
theorem witness_FirstErrorIsKept : loaded.err = false ∧ withError.err = true ∧
    exec .encb withError = .next (after .encb withError) ∧ (∀ m, Instr.encb ≠ .wr .status m) :=
  ⟨by decide, by decide, rfl, fun _ => by simp⟩
theorem witness_OnlyStatusWriteOrResetClearsErr_write :
    { withError with inputs := [transact (.wr .status 4)] }.err = true ∧
    step { withError with inputs := [transact (.wr .status 4)] } =
      .next (stepped { withError with inputs := [transact (.wr .status 4)] }) ∧
    (stepped { withError with inputs := [transact (.wr .status 4)] }).err = false ∧ (4 : Word).getLsbD 2 = true :=
  ⟨by decide, rfl, by decide, by decide⟩
theorem witness_OnlyStatusWriteOrResetClearsErr_reset :
    step { withError with inputs := [.reset] } = .next (stepped { withError with inputs := [.reset] }) ∧
    (stepped { withError with inputs := [.reset] }).err = false :=
  ⟨rfl, by decide⟩
theorem witness_CommandFrame : Instr.encode.command?.isSome = true ∧
    exec .encode (withBuf 0x1000 16) = .next (after .encode (withBuf 0x1000 16)) ∧
    (withBuf 0x1000 16).inWindow 0x1010 = false ∧ (withBuf 0x1000 16).inWindow 0x100F = true ∧
    (withBuf 0x1000 16).inWindow 0x0FFF = false :=
  ⟨by decide, rfl, by decide, by decide, by decide⟩
theorem witness_TransactionFrame : exec (.wr (.key 7) 1) loaded = .next (after (.wr (.key 7) 1) loaded) ∧
    exec (.rd (.key 7)) loaded = .next (after (.rd (.key 7)) loaded) ∧ Slot.key 7 ≠ .key 0 :=
  ⟨rfl, rfl, by decide⟩
theorem witness_OnlyTheHostWrites_key :
    (stepped { loaded with inputs := [transact (.wr (.key 7) 1)] }).k[(7 : KeyIndex)] ≠ loaded.k[(7 : KeyIndex)] := by decide
theorem witness_OnlyTheHostWrites_buffer :
    (stepped { loaded with inputs := [transact (.wr .bufAddr 1)] }).bufAddr ≠ loaded.bufAddr ∧
    (stepped { loaded with inputs := [transact (.wr .bufLen 1)] }).bufLen ≠ loaded.bufLen := by decide
theorem witness_OnlyTheWindowIsWritten : Inv inStore ∧ step inStore = .next (stepped inStore) ∧ inStore.inputs = [] ∧
    (stepped inStore).mem.read 0x1000 ≠ inStore.mem.read 0x1000 :=
  ⟨inv_inStore, rfl, by decide, by decide⟩
theorem witness_RequestsStayInsideTheWindow : Inv inStore ∧ inStore.request = some ⟨true, 0x1000⟩ :=
  ⟨inv_inStore, by decide⟩
theorem witness_UnansweredEngineWaits : { inStore with memReady := false }.request = some ⟨true, 0x1000⟩ ∧
    { withBuf 0xFFFFFFF8 8 with memReady := false }.phase = .idle ∧
    8 ≤ { withBuf 0xFFFFFFF8 8 with memReady := false }.bufLen.toNat ∧
    { withBuf 0xFFFFFFF8 8 with memReady := false }.bufAddr.toNat +
      { withBuf 0xFFFFFFF8 8 with memReady := false }.bufLen.toNat ≤ 2 ^ 32 := by decide
theorem witness_StepRunsTheDecodedInstruction : decode (.command 0x00000001) = .ok .encb ∧
    decode (.command 0x00000000) = .error .opcodeUnassigned ∧
    { loaded with inputs := [.present (.command 0x00000001)] }.inputs = .present (.command 0x00000001) :: [] := by decide
theorem witness_StepWithoutTransaction : loaded.inputs = [] ∧ loaded.phase = .idle ∧ busyEncb.inputs = [] ∧
    busyEncb.phase = .run ∧ { busyEncb with inputs := [.engine] }.inputs = .engine :: [] := by decide
theorem witness_ResetClearsTheEngine : { inStore with inputs := [.reset] }.inputs = .reset :: [] ∧
    inStore.bufferBusy = true ∧ inStore.bph = .store ∧ busyEncb.bufferBusy = false ∧ busyEncode.bph ≠ .store := by decide
theorem witness_ResetValues : Command.wellFormed ⟨.round, 7⟩ = true ∧ loaded.phase = .idle ∧
    { loaded with inputs := [.reset] }.inputs = .reset :: [] := by decide
theorem witness_StepKeepsTheInvariant : Inv inStore ∧ step inStore = .next (stepped inStore) :=
  ⟨inv_inStore, rfl⟩
/-- AnotherAgentsWriteGoesOn: a write into an unfinished block, one into a block that is stored, one into the window's end, and
states that keep and break R38. -/
theorem witness_AnotherAgentsWriteGoesOn :
    { busyEncode with inputs := [.memWrite 0x100F 1] }.inputs = .memWrite 0x100F 1 :: [] ∧
    busyEncode.unfinished 0x1000 = true ∧ busyEncode.unfinished 0x100F = true ∧ busyEncode.unfinished 0x1010 = false ∧
    (engineStep inStore).unfinished 0x1007 = false ∧ (engineStep inStore).unfinished 0x1008 = true ∧
    inStore.inHand (inStore.blockOf 0x1007) = true ∧ inStore.inHand (inStore.blockOf 0x1008) = false ∧
    busyEncode.readEarly = [] ∧ busyEncode.storedEarly = [] := by decide
theorem witness_Exclusive : Exclusive loaded ∧ step loaded = .next (stepped loaded) ∧
    ¬ Exclusive { busyEncode with inputs := [.memWrite 0x1000 1] } :=
  ⟨fun _ _ _ h => by simp [loaded, State.reset] at h, rfl, fun h => absurd (h 0x1000 1 [] rfl) (by decide)⟩
/-- Two states that differ in everything the pair's result does not depend on. -/
theorem witness_OperationDependsOnItsOperands : loaded.phase = .idle ∧
    { loaded with rc := 7, done := true, bufLen := 9 }.phase = .idle ∧
    loaded.k = { loaded with rc := 7, done := true, bufLen := 9 }.k ∧
    loaded.pair = { loaded with rc := 7, done := true, bufLen := 9 }.pair ∧
    exec .encb loaded = .next (after .encb loaded) ∧
    exec .encb { loaded with rc := 7, done := true, bufLen := 9 } =
      .next (after .encb { loaded with rc := 7, done := true, bufLen := 9 }) :=
  ⟨by decide, by decide, by decide, by decide, rfl, rfl⟩
theorem witness_ScriptsLoadTheOperands : loaded.phase = .idle := by decide

end Sys2Proof.Tests
end

section
/-! PROOFS. The values right after reset (10_state.md R20): the round trip of a well-formed command word, acceptance of such a
word through `CTRL`, what a reset input does, and the statement itself. -/

namespace Sys2Proof

/-! ### Well-formed command words decode to themselves (30_encoding.md R45 to R48) -/

@[simp] theorem Opcode.ofCode_code (op : Opcode) : Opcode.ofCode op.code = some op := by
  cases op <;> rfl

/-- The decoder's check of `KIDX` is well-formedness of the command (R46). -/
theorem kidxAllowed_code (c : Command) : kidxAllowed c.op.code (BitVec.ofFin c.kidx) = c.wellFormed := by
  obtain ⟨op, k⟩ := c
  revert k
  cases op <;> decide

theorem decodeCommand_word {c : Command} (h : c.wellFormed = true) : decodeCommand c.word = .ok c := by
  rw [Command.word, decodeCommand_of_fields, Opcode.ofCode_code, kidxAllowed_code, h]
  rfl

end Sys2Proof

namespace Sys2Proof.Machine

/-! ### Acceptance through `CTRL` (44_host_transactions.md R118) -/

/-- While idle a well-formed command in range is accepted when its word is written to `CTRL`. -/
theorem exec_wr_ctrl_of_accepted {s : State} {c : Command} (h : s.phase = .idle) (hc : c.wellFormed = true)
    (hr : usesBuffer c.op = false ∨ s.rangeExceeded = false) : exec (.wr .ctrl c.word) s = .next (s.accept c) := by
  have hoffer : offerWord c.word s = s.accept c := by
    rw [offerWord, decodeCommand_word hc]
    exact offer_of_accepted h hr
  have hexec : exec (.wr .ctrl c.word) s =
      .next (if s.busy then writeBusy .ctrl c.word s else offerWord c.word s) := rfl
  rw [hexec, (State.not_busy_iff s).2 h, hoffer]
  rfl

/-! ### Reset (70_reset_and_hazards.md R150, R151) -/

theorem step_reset {s : State} {rest : List Input} (h : s.inputs = .reset :: rest) :
    step s = .next (resetEngine { s with inputs := rest }) := by
  rw [step, runNext, h]
  rfl

@[simp] theorem resetEngine_mem (s : State) : (resetEngine s).mem = memoryAfterReset s := rfl

theorem storePending_of_idle {s : State} (h : s.phase = .idle) : storePending s = false := by
  simp [storePending, State.bufferBusy, State.busy, h]

/-- Where no store may have begun, reset leaves the buffer memory alone. -/
theorem memoryAfterReset_of_not_storePending {s : State} (h : storePending s = false) : memoryAfterReset s = s.mem := by
  simp [memoryAfterReset, h]

@[simp] theorem statusWord_reset : State.reset.statusWord = 0 := by decide

@[simp] theorem resetEngine_statusWord (s : State) : (resetEngine s).statusWord = 0 := statusWord_reset

theorem reset_k (i : KeyIndex) : State.reset.k[i] = 0 := by
  simp [State.reset]

theorem rangeExceeded_reset : State.reset.rangeExceeded = false := by decide

/-- Settles O54: the reset state's fields are zero by its definition, its empty buffer is in range, so that acceptance asks for
well-formedness only, and an idle engine has no store pending. -/
theorem resetValues : Obligations.ResetValues := by
  unfold Obligations.ResetValues
  refine ⟨reset_k, rfl, rfl, rfl, rfl, statusWord_reset, rfl, rfl, rfl, rfl, rfl, rfl, rfl, rfl, rfl, rfl, rfl, ?_, ?_⟩
  · intro cmd hcmd
    exact ⟨State.reset.accept cmd, exec_wr_ctrl_of_accepted rfl hcmd (.inr rangeExceeded_reset), rfl, rfl⟩
  · intro s rest hinputs hidle
    refine ⟨_, step_reset hinputs, ?_, resetEngine_statusWord _⟩
    rw [resetEngine_mem]
    exact memoryAfterReset_of_not_storePending (storePending_of_idle hidle)

end Sys2Proof.Machine
end

section
/-! PROOFS. The byte order of a block in memory (20_memory.md R31): the eight bytes of a block at their addresses, and from them
what a load reads and what a store leaves. -/

namespace Sys2Proof.Machine

/-- The eight reads of `LoadBlock` (R31), each at its own address. -/
theorem memRead_eight (m : Memory) (a : Word) :
    memRead m a 8 = [m.read a, m.read (a + 1), m.read (a + 2), m.read (a + 3),
      m.read (a + 4), m.read (a + 5), m.read (a + 6), m.read (a + 7)] := by
  rw [memRead_eq_map]
  simp [List.range_succ]

/-- A load puts the byte at the lowest address into the highest bits of `N1` (R31). -/
theorem loadBlock_eq_append (m : Memory) (a : Word) :
    loadBlock m a = (m.read a ++ m.read (a + 1) ++ m.read (a + 2) ++ m.read (a + 3),
      m.read (a + 4) ++ m.read (a + 5) ++ m.read (a + 6) ++ m.read (a + 7)) := by
  rw [loadBlock, memRead_eight]
  rfl

/-- The bytes of a block in memory order are the slices of its words, highest first (R31). -/
theorem blockBytes_eq_slices (p : Pair) :
    blockBytes p = [p.1.extractLsb' 24 8, p.1.extractLsb' 16 8, p.1.extractLsb' 8 8, p.1.extractLsb' 0 8,
      p.2.extractLsb' 24 8, p.2.extractLsb' 16 8, p.2.extractLsb' 8 8, p.2.extractLsb' 0 8] := rfl

/-- The bytes of R31's example, "Hello wo", are those of the pair it gives. -/
theorem blockBytes_example :
    blockBytes (0x48656C6C, 0x6F20776F) = [0x48, 0x65, 0x6C, 0x6C, 0x6F, 0x20, 0x77, 0x6F] := by decide

/-- Settles O23: the eight bytes that stand at the block's addresses after a store are the slices of its words, so a load
gives the pair back; R31's example is the load of a stored block. -/
theorem blocksAreBigEndian : Obligations.BlocksAreBigEndian := by
  unfold Obligations.BlocksAreBigEndian
  intro m a p
  have hbytes := memRead_storeBlock m a p
  rw [memRead_eight, blockBytes_eq_slices] at hbytes
  simp only [List.cons.injEq, and_true] at hbytes
  obtain ⟨h0, h1, h2, h3, h4, h5, h6, h7⟩ := hbytes
  have hexample : loadBlock (memWrite m a [0x48, 0x65, 0x6C, 0x6C, 0x6F, 0x20, 0x77, 0x6F]) a =
      (0x48656C6C, 0x6F20776F) := by
    rw [← blockBytes_example]
    exact loadBlock_storeBlock_same m a _
  exact ⟨h0, h1, h2, h3, h4, h5, h6, h7, loadBlock_eq_append m a, loadBlock_storeBlock_same m a p, hexample⟩

end Sys2Proof.Machine
end

section
/-! PROOFS. The decoder as an equation on words (30_encoding.md R45 to R49): which word a command is decoded from, and from it the
legal words, the opcode map by mask and match, and what a word that does not decode leaves while idle. -/

namespace Sys2Proof

/-! ### The fields of a command word (R45 format C) -/

@[simp] theorem zeroField_append (z : BitVec 25) (k : BitVec 3) (op : BitVec 4) : zeroField (z ++ k ++ op) = z := by
  apply BitVec.eq_of_getLsbD_eq
  intro i hi
  rw [zeroField, BitVec.getLsbD_extractLsb', command_getLsbD, if_neg (by omega), if_neg (by omega)]
  simp [hi]

@[simp] theorem kidxField_append (z : BitVec 25) (k : BitVec 3) (op : BitVec 4) : kidxField (z ++ k ++ op) = k := by
  apply BitVec.eq_of_getLsbD_eq
  intro i hi
  rw [kidxField, BitVec.getLsbD_extractLsb', command_getLsbD, if_neg (by omega), if_pos (by omega)]
  simp [hi]

@[simp] theorem opField_append (z : BitVec 25) (k : BitVec 3) (op : BitVec 4) : opField (z ++ k ++ op) = op := by
  apply BitVec.eq_of_getLsbD_eq
  intro i hi
  simp [opField, command_getLsbD, hi]

/-- Words are equal when their three fields are. -/
theorem eq_iff_fields (c c' : Word) :
    c = c' ↔ zeroField c = zeroField c' ∧ kidxField c = kidxField c' ∧ opField c = opField c' := by
  constructor
  · rintro rfl
    exact ⟨rfl, rfl, rfl⟩
  · rintro ⟨hz, hk, ho⟩
    rw [command_fields c, hz, hk, ho, ← command_fields c']

theorem eq_word_iff (c : Word) (cmd : Command) :
    c = cmd.word ↔ zeroField c = 0 ∧ kidxField c = BitVec.ofFin cmd.kidx ∧ opField c = cmd.op.code := by
  rw [eq_iff_fields, Command.word, zeroField_append, kidxField_append, opField_append]

/-! ### Which word a command is decoded from (R46, R47, R49) -/

theorem Opcode.ofCode_eq_some_iff (n : BitVec 4) (op : Opcode) : Opcode.ofCode n = some op ↔ n = op.code := by
  revert n
  cases op <;> decide

theorem Opcode.ofCode_isSome (n : BitVec 4) : (Opcode.ofCode n).isSome = opAssigned n := by
  revert n
  decide

/-- The decoder's three checks, in the terms of R46. -/
theorem decodeCommand_isOk_iff (c : Word) : (∃ cmd, decodeCommand c = .ok cmd) ↔ legalWord c = true := by
  rw [legalWord, ← Opcode.ofCode_isSome, decodeCommand]
  by_cases hz : zeroField c = 0#25
  · cases ho : Opcode.ofCode (opField c) with
    | none => simp [hz]
    | some op => cases hk : kidxAllowed (opField c) (kidxField c) <;> simp [hz]
  · simp [hz]

theorem decodeCommand_eq_ok_iff (c : Word) (cmd : Command) :
    decodeCommand c = .ok cmd ↔ cmd.wellFormed = true ∧ c = cmd.word := by
  constructor
  · intro h
    unfold decodeCommand at h
    split at h
    · cases h
    · next hz =>
      split at h
      · cases h
      · next op hop =>
        split at h
        · next hk =>
          cases h
          have hcode := (Opcode.ofCode_eq_some_iff _ _).1 hop
          refine ⟨?_, (eq_word_iff c _).2 ⟨not_not.1 hz, rfl, hcode⟩⟩
          rw [← kidxAllowed_code]
          rwa [hcode] at hk
        · cases h
  · rintro ⟨hwf, rfl⟩
    exact decodeCommand_word hwf

/-! ### The opcode map (R47) -/

theorem Command.command_toInstr {cmd : Command} (h : cmd.wellFormed = true) : cmd.toInstr.command? = some cmd := by
  obtain ⟨op, k⟩ := cmd
  revert k
  cases op <;> decide

theorem decode_command_eq_ok_iff (c : Word) (i : Instr) :
    decode (.command c) = .ok i ↔ ∃ cmd, decodeCommand c = .ok cmd ∧ cmd.toInstr = i := by
  have hdecode : decode (.command c) =
      match decodeCommand c with
      | .ok cmd => .ok cmd.toInstr
      | .error r => .error r := rfl
  rw [hdecode]
  cases decodeCommand c <;> simp

/-- The one word that decodes to the instruction of a command. -/
theorem decode_command_toInstr_iff (c : Word) {cmd : Command} (h : cmd.wellFormed = true) :
    decode (.command c) = .ok cmd.toInstr ↔ c = cmd.word := by
  rw [decode_command_eq_ok_iff]
  constructor
  · rintro ⟨cmd', hc, hi⟩
    obtain ⟨hwf', rfl⟩ := (decodeCommand_eq_ok_iff c cmd').1 hc
    have hcmd : some cmd' = some cmd := by
      rw [← Command.command_toInstr hwf', hi, Command.command_toInstr h]
    rw [Option.some.inj hcmd]
  · rintro rfl
    exact ⟨cmd, decodeCommand_word h, rfl⟩

/-- ROUND's mask keeps `ZERO` and `OP` and clears `KIDX`. -/
theorem and_roundMask_eq_iff (c : Word) : c &&& 0xFFFFFF8F = 0x00000005 ↔ zeroField c = 0 ∧ opField c = 5 := by
  have hz : zeroField (c &&& 0xFFFFFF8F) = zeroField c := BitVec.extractLsb'_and.trans BitVec.and_allOnes
  have hk : kidxField (c &&& 0xFFFFFF8F) = 0 := BitVec.extractLsb'_and.trans BitVec.and_zero
  have ho : opField (c &&& 0xFFFFFF8F) = opField c := BitVec.extractLsb'_and.trans BitVec.and_allOnes
  rw [eq_iff_fields, hz, hk, ho]
  exact ⟨fun ⟨hz, _, ho⟩ => ⟨hz, ho⟩, fun ⟨hz, ho⟩ => ⟨hz, rfl, ho⟩⟩

/-- Settles O4: a command instruction decodes from its own word only; a full mask keeps the word, and ROUND's keeps the two
fields that the word of every ROUND shares. -/
theorem opcodeMapByMaskAndMatch : Obligations.OpcodeMapByMaskAndMatch := by
  unfold Obligations.OpcodeMapByMaskAndMatch
  intro c
  have hfull : c &&& 0xFFFFFFFF = c := BitVec.and_allOnes
  simp only [hfull]
  refine ⟨decode_command_toInstr_iff c (cmd := ⟨.encb, 0⟩) rfl, decode_command_toInstr_iff c (cmd := ⟨.decb, 0⟩) rfl,
    decode_command_toInstr_iff c (cmd := ⟨.encode, 0⟩) rfl, decode_command_toInstr_iff c (cmd := ⟨.decode, 0⟩) rfl,
    fun k => ?_, decode_command_toInstr_iff c (cmd := ⟨.subst, 0⟩) rfl,
    decode_command_toInstr_iff c (cmd := ⟨.add32, 0⟩) rfl, decode_command_toInstr_iff c (cmd := ⟨.addm1, 0⟩) rfl⟩
  have hk : k.val = (c.extractLsb' 4 3).toNat ↔ kidxField c = BitVec.ofFin k := by
    rw [← BitVec.toNat_inj]
    exact eq_comm
  calc decode (.command c) = .ok (.round k)
    _ ↔ c = Command.word ⟨.round, k⟩ := decode_command_toInstr_iff c (cmd := ⟨.round, k⟩) rfl
    _ ↔ zeroField c = 0 ∧ kidxField c = BitVec.ofFin k ∧ opField c = 5 := eq_word_iff c _
    _ ↔ (zeroField c = 0 ∧ opField c = 5) ∧ kidxField c = BitVec.ofFin k := by rw [and_right_comm, and_assoc]
    _ ↔ _ := by rw [and_roundMask_eq_iff, hk]

/-! ### The fifteen legal words (R46, R49) -/

/-- The legal words (R49), in the order of the opcode map (R47). -/
def legalWords : List Word :=
  [0x01, 0x02, 0x03, 0x04, 0x05, 0x15, 0x25, 0x35, 0x45, 0x55, 0x65, 0x75, 0x06, 0x07, 0x08]

theorem Command.word_mem_legalWords {cmd : Command} (h : cmd.wellFormed = true) : cmd.word ∈ legalWords := by
  obtain ⟨op, k⟩ := cmd
  revert k
  cases op <;> decide

theorem legalWord_of_mem : ∀ c ∈ legalWords, legalWord c = true :=
  List.all_eq_true.1 (by decide)

theorem decodeCommand_isOk_iff_mem (c : Word) : (∃ cmd, decodeCommand c = .ok cmd) ↔ c ∈ legalWords := by
  constructor
  · rintro ⟨cmd, h⟩
    obtain ⟨hwf, rfl⟩ := (decodeCommand_eq_ok_iff c cmd).1 h
    exact Command.word_mem_legalWords hwf
  · intro h
    exact (decodeCommand_isOk_iff c).2 (legalWord_of_mem c h)

theorem legalWord_iff (c : Word) : legalWord c = true ↔
    zeroField c = 0 ∧ (1 ≤ (opField c).toNat ∧ (opField c).toNat ≤ 8) ∧ (opField c = 5 ∨ kidxField c = 0) := by
  simp [legalWord, opAssigned, kidxAllowed, and_assoc]

end Sys2Proof

namespace Sys2Proof.Machine

theorem exec_wr_of_idle {s : State} (h : s.phase = .idle) (slot : Slot) (v : Word) :
    exec (.wr slot v) s = .next (writeIdle slot v s) := by
  have hexec : exec (.wr slot v) s = .next (if s.busy then writeBusy slot v s else writeIdle slot v s) := rfl
  rw [hexec, (State.not_busy_iff s).2 h]
  rfl

/-- While idle a word that is no command is turned away with `ILLEGAL_CMD` (60_exceptions.md R132). -/
theorem exec_wr_ctrl_of_not_decoded {s : State} {c : Word} (h : s.phase = .idle)
    (hc : ¬ ∃ cmd, decodeCommand c = .ok cmd) : exec (.wr .ctrl c) s = .next (s.raise .illegalCmd) := by
  rw [exec_wr_of_idle h, writeIdle, offerWord]
  cases hd : decodeCommand c with
  | error r => rfl
  | ok cmd => exact absurd ⟨cmd, hd⟩ hc

/-- Settles O3: the decoder's checks are those of R46, what it accepts are the words of the well-formed commands, and a word
that it does not accept is turned away while idle. -/
theorem exactlyFifteenLegalWords : Obligations.ExactlyFifteenLegalWords := by
  unfold Obligations.ExactlyFifteenLegalWords
  intro c
  refine ⟨(decodeCommand_isOk_iff c).trans (legalWord_iff c), decodeCommand_isOk_iff_mem c, fun hc s hidle => ?_⟩
  exact exec_wr_ctrl_of_not_decoded hidle (mt (decodeCommand_isOk_iff_mem c).1 hc)

end Sys2Proof.Machine
end

section
/-! PROOFS. The `STATUS` write (44_host_transactions.md R120), the same idle and busy. -/

namespace Sys2Proof.Machine

theorem State.writeStatus_eq (s : State) (m : Word) : s.writeStatus m = { s with
    done := if m.getLsbD 1 then false else s.done, err := if m.getLsbD 2 then false else s.err,
    errCode := if m.getLsbD 2 then 0 else s.errCode } := by
  have hdone : (s.done && !m.getLsbD 1) = if m.getLsbD 1 then false else s.done := by
    cases m.getLsbD 1 <;> simp
  rw [State.writeStatus, hdone]
  rfl

/-- A `STATUS` write acts as ever, whether the engine is busy or not (R116, R120). -/
theorem exec_wr_status (s : State) (m : Word) : exec (.wr .status m) s = .next (s.writeStatus m) := by
  have hexec : exec (.wr .status m) s =
      .next (if s.busy then s.writeStatus m else s.writeStatus m) := rfl
  rw [hexec, ite_self]

/-- Settles O32: idle or busy, the write is the flags' own write-1-to-clear. -/
theorem statusWriteClears : Obligations.StatusWriteClears := by
  unfold Obligations.StatusWriteClears
  intro s m
  rw [exec_wr_status, State.writeStatus_eq]

end Sys2Proof.Machine
end

section
/-! PROOFS. The combinational units (40_primitives.md R61 to R67): the substitution network by bytes and by nibbles, the packed
tables, the two adders, and the rotation. -/

namespace Sys2Proof.Machine

/-! ### The substitution network (R61) -/

/-- A slice of a slice is a slice of the word. -/
theorem extractLsb'_extractLsb' {w : Nat} (x : BitVec w) (start len : Nat) {start' len' : Nat} (h : start' + len' ≤ len) :
    (x.extractLsb' start len).extractLsb' start' len' = x.extractLsb' (start + start') len' := by
  apply BitVec.eq_of_getLsbD_eq
  intro i hi
  have hlt : start' + i < len := by omega
  simp [hi, hlt, Nat.add_assoc]

/-- The byte of a word at a position is the one that the network's own byte there gives. -/
theorem byteOf_substituteWith (T : SboxTables) (w : Word) (j : Fin 4) :
    byteOf (substituteWith T w) j.val = substituteByte T j (byteOf w j.val) := by
  have hbytes : bytesBe (substituteWith T w) = [substituteByte T 3 (byteOf w 3), substituteByte T 2 (byteOf w 2),
      substituteByte T 1 (byteOf w 1), substituteByte T 0 (byteOf w 0)] := bytesBe_be32 _ _ _ _
  simp only [bytesBe, List.cons.injEq, and_true] at hbytes
  obtain ⟨h3, h2, h1, h0⟩ := hbytes
  match j with
  | 0 => exact h0
  | 1 => exact h1
  | 2 => exact h2
  | 3 => exact h3

/-- Nibble `n` of a word is nibble `n & 1` of its byte `n >> 1` (R61). -/
theorem nibble_eq_nibble_byteOf (w : Word) (n : Nat) :
    w.extractLsb' (4 * n) 4 = (byteOf w (n / 2)).extractLsb' (4 * (n % 2)) 4 := by
  rw [byteOf, extractLsb'_extractLsb' _ _ _ (by omega)]
  congr 1
  omega

/-- Each nibble of a byte goes through its own table (R61). -/
theorem nibble_substituteByte (T : SboxTables) (j : Fin 4) (b : Byte) (t : Fin 2) :
    (substituteByte T j b).extractLsb' (4 * t.val) 4 = T j t (b.extractLsb' (4 * t.val) 4) := by
  match t with
  | 0 => exact BitVec.extractLsb'_append_eq_right
  | 1 => exact BitVec.extractLsb'_append_eq_left

theorem substituteByte_tablesId (j : Fin 4) (b : Byte) : substituteByte tablesId j b = b :=
  BitVec.extractLsb'_append_extractLsb'

/-- The identity tables make the network the identity (R61). -/
theorem substituteWith_tablesId (w : Word) : substituteWith tablesId w = w := by
  simp only [substituteWith, substituteByte_tablesId]
  exact byteOf_be32 w

/-- Settles O7: byte `j` of the result is byte `j` of the word through pair `j`, and a nibble is half of a byte. -/
theorem substituteMapsEachNibble : Obligations.SubstituteMapsEachNibble := by
  unfold Obligations.SubstituteMapsEachNibble
  refine ⟨fun T w j => ?_, fun T w n => ?_, substituteWith_tablesId⟩
  · have hlow : (byteOf w j.val).extractLsb' 0 4 = w.extractLsb' (8 * j.val) 4 :=
      extractLsb'_extractLsb' w (8 * j.val) 8 (by decide)
    have hhigh : (byteOf w j.val).extractLsb' 4 4 = w.extractLsb' (8 * j.val + 4) 4 :=
      extractLsb'_extractLsb' w (8 * j.val) 8 (by decide)
    rw [← hlow, ← hhigh]
    exact byteOf_substituteWith T w j
  · rw [nibble_eq_nibble_byteOf, nibble_eq_nibble_byteOf w]
    have hbyte := byteOf_substituteWith T w ⟨n.val / 2, by omega⟩
    rw [hbyte]
    exact nibble_substituteByte T _ _ ⟨n.val % 2, by omega⟩

/-! ### Packed tables (R62) -/

/-- The direct extraction is the slice of the packed word. -/
theorem extractA_eq_slice (P : BitVec 64) (x : Nibble) : extractA P x = (P.extractLsb' (4 * x.toNat) 4).setWidth 64 := by
  have hmask (i : Nat) (hi : i < 64) : (0xF : BitVec 64).getLsbD i = decide (i < 4) := by
    revert i
    decide
  apply BitVec.eq_of_getLsbD_eq
  intro i hi
  rw [extractA, BitVec.getLsbD_and, hmask i hi, BitVec.getLsbD_ushiftRight, BitVec.getLsbD_setWidth,
    BitVec.getLsbD_extractLsb', decide_eq_true hi, Bool.true_and, Bool.and_comm]

/-- The left shift drops what stands above the entry, and the right shift what stands below it. -/
theorem extractB_eq_slice (P : BitVec 64) (x : Nibble) : extractB P x = (P.extractLsb' (4 * x.toNat) 4).setWidth 64 := by
  have hx := x.isLt
  apply BitVec.eq_of_getLsbD_eq
  intro i hi
  rw [extractB, BitVec.getLsbD_ushiftRight, BitVec.getLsbD_shiftLeft, BitVec.getLsbD_setWidth, BitVec.getLsbD_extractLsb',
    decide_eq_true hi, Bool.true_and]
  by_cases h4 : i < 4
  · have hbit : 60 + i - (60 - 4 * x.toNat) = 4 * x.toNat + i := by omega
    have hnotLow : ¬ 60 + i < 60 - 4 * x.toNat := by omega
    rw [hbit, decide_eq_true (by omega), decide_eq_false hnotLow, decide_eq_true h4]
    rfl
  · rw [decide_eq_false (by omega), decide_eq_false h4, Bool.false_and, Bool.false_and, Bool.false_and]

/-- The bits of a fold of `|||` are those of its terms. -/
theorem getLsbD_foldr_or {w : Nat} (f : Nat → BitVec w) (l : List Nat) (i : Nat) :
    (l.foldr (fun x p => p ||| f x) 0).getLsbD i = l.any fun x => (f x).getLsbD i := by
  induction l with
  | nil => simp
  | cons x xs ih => rw [List.foldr_cons, BitVec.getLsbD_or, ih, List.any_cons, Bool.or_comm]

/-- An entry of a packed table reaches its own four bits only. -/
theorem getLsbD_packed_entry (e : Nibble) {x y i : Nat} (hy : y < 16) (hi : i < 4) :
    (e.setWidth 64 <<< (4 * x)).getLsbD (4 * y + i) = (decide (x = y) && e.getLsbD i) := by
  rw [BitVec.getLsbD_shiftLeft, BitVec.getLsbD_setWidth]
  rcases lt_trichotomy x y with h | rfl | h
  · have hhigh : 4 ≤ 4 * y + i - 4 * x := by omega
    simp [BitVec.getLsbD_of_ge _ _ hhigh, h.ne]
  · have hlt : 4 * x + i < 64 := by omega
    have hbit : 4 * x + i - 4 * x = i := by omega
    have hnotLow : ¬ 4 * x + i < 4 * x := by omega
    simp [hlt, hbit, hnotLow, show i < 64 by omega]
  · have hlow : 4 * y + i < 4 * x := by omega
    simp [hlow, h.ne']

theorem getLsbD_packTable (table : Nibble → Nibble) (x : Nibble) {i : Nat} (hi : i < 4) :
    (packTable table).getLsbD (4 * x.toNat + i) = (table x).getLsbD i := by
  have hx := x.isLt
  rw [packTable, getLsbD_foldr_or, Bool.eq_iff_iff, List.any_eq_true]
  simp only [List.mem_range, getLsbD_packed_entry _ hx hi, Bool.and_eq_true, decide_eq_true_eq]
  constructor
  · rintro ⟨y, -, rfl, h⟩
    simpa using h
  · intro h
    exact ⟨x.toNat, hx, rfl, by simpa using h⟩

/-- A packed table gives its own entries back (R62). -/
theorem packTable_entry (table : Nibble → Nibble) (x : Nibble) :
    (packTable table).extractLsb' (4 * x.toNat) 4 = table x := by
  apply BitVec.eq_of_getLsbD_eq
  intro i hi
  rw [BitVec.getLsbD_extractLsb', getLsbD_packTable table x hi]
  simp [hi]

/-- Settles O8: both strategies take the slice `P[4x+3:4x]`, where `packTable` puts entry `x`. -/
theorem extractionStrategiesAgree : Obligations.ExtractionStrategiesAgree := by
  unfold Obligations.ExtractionStrategiesAgree
  refine ⟨fun P x => ⟨?_, extractA_eq_slice P x⟩, packTable_entry⟩
  rw [extractA_eq_slice, extractB_eq_slice]

/-! ### The adders (R64, R65) -/

@[simp] theorem addMod32_zero (a : Word) : addMod32 a 0 = a :=
  BitVec.add_zero a

/-- Settles O9: `add_mod32` is the addition of words. -/
theorem addModTwoToThe32 : Obligations.AddModTwoToThe32 := by
  unfold Obligations.AddModTwoToThe32
  exact ⟨BitVec.toNat_add, BitVec.add_comm, BitVec.add_assoc, addMod32_zero, by decide⟩

/-- The carry-in stays exactly when the sum exceeds 0xFFFFFFFE (R65). -/
theorem addMod32Minus1_eq (a b : Word) :
    addMod32Minus1 a b = if a.toNat + b.toNat ≤ 0xFFFFFFFE then a + b else a + b + 1 := by
  rw [addMod32Minus1]
  split
  · next h => rw [if_neg (by omega)]
  · next h => rw [if_pos (by omega), BitVec.add_sub_cancel]

/-- The closed form of R65. -/
theorem addMod32Minus1_toNat (a b : Word) :
    (addMod32Minus1 a b).toNat =
      if a.toNat + b.toNat ≤ 0xFFFFFFFE then a.toNat + b.toNat else a.toNat + b.toNat - 0xFFFFFFFF := by
  have ha := a.isLt
  have hb := b.isLt
  rw [addMod32Minus1_eq]
  split <;> (simp; omega)

theorem addMod32Minus1_toNat_of_le {a b : Word} (h : a.toNat + b.toNat ≤ 0xFFFFFFFE) :
    (addMod32Minus1 a b).toNat = a.toNat + b.toNat := by
  rw [addMod32Minus1_toNat, if_pos h]

theorem addMod32Minus1_toNat_of_ge {a b : Word} (h : 0xFFFFFFFF ≤ a.toNat + b.toNat) :
    (addMod32Minus1 a b).toNat = a.toNat + b.toNat - 0xFFFFFFFF := by
  rw [addMod32Minus1_toNat, if_neg (by omega)]

theorem addMod32Minus1_carry (a b : Word) :
    addMod32Minus1 a b = if 0xFFFFFFFF - a.toNat ≤ b.toNat then a + b + 1 else a + b + 1 - 1 := by
  have ha := a.isLt
  rw [addMod32Minus1_eq, BitVec.add_sub_cancel]
  by_cases h : a.toNat + b.toNat ≤ 0xFFFFFFFE
  · rw [if_pos h, if_neg (by omega)]
  · rw [if_neg h, if_pos (by omega)]

theorem addMod32Minus1_mod (a b : Word) :
    (addMod32Minus1 a b).toNat % (2 ^ 32 - 1) = (a.toNat + b.toNat) % (2 ^ 32 - 1) := by
  rw [addMod32Minus1_toNat]
  split <;> omega

theorem addMod32Minus1_eq_zero_iff (a b : Word) :
    addMod32Minus1 a b = 0 ↔ a.toNat + b.toNat = 0 ∨ a.toNat + b.toNat = 0xFFFFFFFF := by
  have hzero : (0 : Word).toNat = 0 := rfl
  rw [← BitVec.toNat_inj, addMod32Minus1_toNat, hzero]
  split <;> omega

theorem addMod32Minus1_eq_allOnes_iff (a b : Word) :
    addMod32Minus1 a b = 0xFFFFFFFF ↔ a = 0xFFFFFFFF ∧ b = 0xFFFFFFFF := by
  have ha := a.isLt
  have hb := b.isLt
  have hones : (0xFFFFFFFF : Word).toNat = 0xFFFFFFFF := rfl
  rw [← BitVec.toNat_inj, ← BitVec.toNat_inj, ← BitVec.toNat_inj, addMod32Minus1_toNat, hones]
  split <;> omega

theorem addMod32Minus1_comm (a b : Word) : addMod32Minus1 a b = addMod32Minus1 b a := by
  rw [addMod32Minus1_eq, addMod32Minus1_eq, Nat.add_comm, BitVec.add_comm]

/-- 0xFFFFFFFF is a second zero, and any other word is its own sum with 0 (R65). -/
theorem addMod32Minus1_zero (a : Word) : addMod32Minus1 a 0 = if a = 0xFFFFFFFF then 0 else a := by
  split
  · next h =>
    subst h
    decide
  · next h =>
    have hle : a.toNat + (0 : Word).toNat ≤ 0xFFFFFFFE := by
      have hne : a.toNat ≠ 0xFFFFFFFF := fun e => h (BitVec.eq_of_toNat_eq e)
      have ha := a.isLt
      have hzero : (0 : Word).toNat = 0 := rfl
      omega
    rw [addMod32Minus1_eq, if_pos hle]
    exact BitVec.add_zero a

/-- Settles O10: every clause follows from the closed form, read on the unbounded sum. -/
theorem addModTwoToThe32MinusOne : Obligations.AddModTwoToThe32MinusOne := by
  unfold Obligations.AddModTwoToThe32MinusOne
  refine ⟨fun a b => ?_, by decide, by decide, by decide⟩
  exact ⟨addMod32Minus1_carry a b, addMod32Minus1_toNat_of_le, addMod32Minus1_toNat_of_ge, addMod32Minus1_mod a b,
    addMod32Minus1_eq_zero_iff a b, addMod32Minus1_eq_allOnes_iff a b, addMod32Minus1_comm a b, addMod32Minus1_zero a⟩

/-! ### The rotation (R67) -/

theorem rotl32_eq_rotateLeft (x : Word) {n : Nat} (h : n < 32) : rotl32 x n = x.rotateLeft n := by
  rw [rotl32, BitVec.rotateLeft_def, Nat.mod_eq_of_lt h]

/-- Where each bit of the result comes from (R67). -/
theorem rotl32_eleven_getLsbD (x : Word) {i : Nat} (hi : i < 32) :
    (rotl32 x 11).getLsbD i = if i < 11 then x.getLsbD (21 + i) else x.getLsbD (i - 11) := by
  rw [rotl32_eq_rotateLeft x (by decide), BitVec.getLsbD_rotateLeft, decide_eq_true hi, Bool.true_and,
    Bool.cond_decide]

/-- Where each bit of a word goes (R67). -/
theorem rotl32_eleven_moves_bit (x : Word) {i : Nat} (hi : i < 32) :
    (rotl32 x 11).getLsbD ((i + 11) % 32) = x.getLsbD i := by
  rw [rotl32_eleven_getLsbD x (Nat.mod_lt _ (by decide))]
  by_cases h : i < 21
  · rw [if_neg (by omega)]
    congr 1
    omega
  · rw [if_pos (by omega)]
    congr 1
    omega

/-- The low 21 bits of a word move up, and its high 11 come in below them (R67). -/
theorem rotl32_eleven_eq_append (x : Word) : rotl32 x 11 = x.extractLsb' 0 21 ++ x.extractLsb' 21 11 := by
  apply BitVec.eq_of_getLsbD_eq
  intro i hi
  have happend := BitVec.getLsbD_append (x := x.extractLsb' 0 21) (y := x.extractLsb' 21 11) (i := i)
  refine (rotl32_eleven_getLsbD x hi).trans (Eq.trans ?_ happend.symm)
  rw [BitVec.getLsbD_extractLsb', BitVec.getLsbD_extractLsb', Nat.zero_add]
  by_cases h : i < 11
  · rw [if_pos h, if_pos h, decide_eq_true h, Bool.true_and]
  · rw [if_neg h, if_neg h, decide_eq_true (by omega), Bool.true_and]

/-- Settles O11: the bits of the library's left rotation by 11, read both ways. -/
theorem rotationByEleven : Obligations.RotationByEleven := by
  unfold Obligations.RotationByEleven
  exact ⟨fun x _ => rotl32_eleven_moves_bit x, rotl32_eleven_eq_append, by decide, by decide⟩

end Sys2Proof.Machine
end

section
/-! PROOFS. Commands that work on the pair (40_primitives.md, the template of an operation rule): what an accepted command leaves
when it completes, and the protocol flags and errors, each said once for any command; then SUBST, ADD32 and ADDM1. -/

namespace Sys2Proof.Machine

/-! ### Decoding and the `CTRL` write -/

theorem decode_command_word {cmd : Command} (h : cmd.wellFormed = true) : decode (.command cmd.word) = .ok cmd.toInstr :=
  (decode_command_toInstr_iff cmd.word h).2 rfl

/-- While busy a write to `CTRL` is `BUSY_WRITE`, whatever the word (60_exceptions.md R133). -/
theorem exec_wr_ctrl_of_busy {s : State} (h : s.phase = .run) (w : Word) :
    exec (.wr .ctrl w) s = .next (s.raise .busyWrite) := by
  have hexec : exec (.wr .ctrl w) s = .next (if s.busy then s.raise .busyWrite else offerWord w s) := rfl
  rw [hexec, if_pos ((State.busy_iff s).2 h)]

/-- While idle a write of an illegal word to `CTRL` is `ILLEGAL_CMD` (60_exceptions.md R132). -/
theorem exec_wr_ctrl_of_illegal {s : State} {w : Word} (h : s.phase = .idle) (hw : legalWord w = false) :
    exec (.wr .ctrl w) s = .next (s.raise .illegalCmd) := by
  refine exec_wr_ctrl_of_not_decoded h fun hdecoded => ?_
  rw [(decodeCommand_isOk_iff w).1 hdecoded] at hw
  cases hw

/-! ### Any command -/

section
variable {s : State} {i : Instr} {c : Command} {run : State → State}

/-- The protocol flags and errors of an instruction that offers a well-formed command, in range, and whose run ends with `DONE`
and keeps the error record. -/
theorem protocolHolds_of_offer (hexec : exec i s = .next (s.offer c run)) (hwf : c.wellFormed = true)
    (hrange : usesBuffer c.op = false ∨ s.rangeExceeded = false)
    (hphase : (run (s.accept c)).phase = .idle) (hdone : (run (s.accept c)).done = true)
    (herr : (run (s.accept c)).err = s.err) (hcode : (run (s.accept c)).errCode = s.errCode) :
    ProtocolHolds c.word i s := by
  refine ⟨fun hidle => ⟨?_, ?_⟩, fun hbusy => ⟨?_, exec_wr_ctrl_of_busy hbusy c.word⟩,
    fun hidle w hw => exec_wr_ctrl_of_illegal hidle hw⟩
  · exact ⟨s.accept c, exec_wr_ctrl_of_accepted hidle hwf hrange, rfl, rfl, rfl, rfl⟩
  · exact ⟨run (s.accept c), by rw [hexec, offer_of_accepted hidle hrange], hphase, hdone, herr, hcode⟩
  · rw [hexec, offer_of_busy hbusy]
    rfl

/-- A command that is accepted, replaces the pair by `p` and completes leaves everything else as it was, but for `DONE` and the
hidden sequencing registers. -/
theorem exec_completes_with_pair (hexec : exec i s = .next (s.offer c run)) (hidle : s.phase = .idle)
    (hrange : usesBuffer c.op = false ∨ s.rangeExceeded = false) (p : Pair)
    (hrun : run (s.accept c) = withSequencerOf ((s.accept c).setPair p).complete (run (s.accept c))) :
    ∃ t, exec i s = .next t ∧ t = withSequencerOf { s with n1 := p.1, n2 := p.2, done := true } t := by
  have hcomplete (t : State) : withSequencerOf ((s.accept c).setPair p).complete t =
      withSequencerOf { s with n1 := p.1, n2 := p.2, done := true } t := by
    rw [withSequencerOf, withSequencerOf, hidle]
    rfl
  exact ⟨run (s.accept c), by rw [hexec, offer_of_accepted hidle hrange], hrun.trans (hcomplete _)⟩

end

/-! ### SUBST, ADD32 and ADDM1 (R70 to R72) -/

theorem exec_subst (s : State) : exec .subst s = .next (s.offer ⟨.subst, 0⟩ fun a => (opSubst a).complete) := rfl

theorem exec_add32 (s : State) : exec .add32 s = .next (s.offer ⟨.add32, 0⟩ fun a => (opAdd32 a).complete) := rfl

theorem exec_addm1 (s : State) : exec .addm1 s = .next (s.offer ⟨.addm1, 0⟩ fun a => (opAddm1 a).complete) := rfl

/-- Settles O12: SUBST replaces `N1` by the network's image of it, and completes. -/
theorem substCompletes : Obligations.SubstCompletes := by
  unfold Obligations.SubstCompletes
  refine ⟨fun s hidle => ?_, fun s => ?_, decode_command_word (cmd := ⟨.subst, 0⟩) rfl, substituteWith_tablesId,
    substituteWith_tablesId _, by decide⟩
  · exact exec_completes_with_pair (exec_subst s) hidle (.inl rfl) (substitute s.n1, s.n2) rfl
  · exact protocolHolds_of_offer (exec_subst s) rfl (.inl rfl) rfl rfl rfl rfl

/-- Settles O13: ADD32 replaces `N1` by the sum, and completes. -/
theorem add32Completes : Obligations.Add32Completes := by
  unfold Obligations.Add32Completes
  refine ⟨fun s hidle => ?_, fun s => ?_, decode_command_word (cmd := ⟨.add32, 0⟩) rfl, by decide, addMod32_zero,
    by decide, by decide⟩
  · exact exec_completes_with_pair (exec_add32 s) hidle (.inl rfl) (s.n1 + s.n2, s.n2) rfl
  · exact protocolHolds_of_offer (exec_add32 s) rfl (.inl rfl) rfl rfl rfl rfl

/-- Settles O14: ADDM1 replaces `N1` by `add_mod32_minus1` of the pair, which the carry's two cases write out, and completes. -/
theorem addm1Completes : Obligations.Addm1Completes := by
  unfold Obligations.Addm1Completes
  refine ⟨fun s hidle => ?_, fun s => ?_, decode_command_word (cmd := ⟨.addm1, 0⟩) rfl, by decide, by decide, by decide,
    by decide, by decide, by decide, by decide⟩
  · rw [← addMod32Minus1_eq]
    exact exec_completes_with_pair (exec_addm1 s) hidle (.inl rfl) (addMod32Minus1 s.n1 s.n2, s.n2) rfl
  · exact protocolHolds_of_offer (exec_addm1 s) rfl (.inl rfl) rfl rfl rfl rfl

end Sys2Proof.Machine
end

section
/-! PROOFS. The round and the key schedule (41_round_keyschedule.md R80 to R85): a round is undone by the same round between two
swaps, and the schedule's index is a value by ranges, in number and in bit terms. -/

namespace Sys2Proof.Machine

/-! ### A round undone (R81) -/

@[simp] theorem roundWith_fst (T : SboxTables) (key : Key) (k : KeyIndex) (p : Pair) :
    (roundWith T key k p).1 = p.2 ^^^ mixWith T key k p.1 := rfl

@[simp] theorem roundWith_snd (T : SboxTables) (key : Key) (k : KeyIndex) (p : Pair) : (roundWith T key k p).2 = p.1 := rfl

@[simp] theorem swapPair_swapPair (p : Pair) : swapPair (swapPair p) = p := rfl

/-- The old `N2` comes back because the new `N2` is the old `N1`, so that the same mixed word is taken off again. -/
theorem roundWith_recovers_snd (T : SboxTables) (key : Key) (k : KeyIndex) (p : Pair) :
    (roundWith T key k p).1 ^^^ mixWith T key k (roundWith T key k p).2 = p.2 := by
  rw [roundWith_fst, roundWith_snd, BitVec.xor_assoc, BitVec.xor_self, BitVec.xor_zero]

/-- R81: a round, a swap and the same round give the swapped pair. -/
theorem roundWith_swapPair_roundWith (T : SboxTables) (key : Key) (k : KeyIndex) (p : Pair) :
    roundWith T key k (swapPair (roundWith T key k p)) = swapPair p := by
  exact Prod.ext (roundWith_recovers_snd T key k p) rfl

/-- The inverse of a round is the same round between two swaps. -/
theorem roundWith_bijective (T : SboxTables) (key : Key) (k : KeyIndex) : Function.Bijective (roundWith T key k) := by
  refine Function.bijective_iff_has_inverse.2 ⟨swapPair ∘ roundWith T key k ∘ swapPair, fun p => ?_, fun q => ?_⟩
  · exact congrArg swapPair (roundWith_swapPair_roundWith T key k p)
  · exact (roundWith_swapPair_roundWith T key k (swapPair q)).trans (swapPair_swapPair q)

/-- Settles O16: the mixed word depends on the half that the round keeps, so it can be taken off again. -/
theorem roundIsUndone : Obligations.RoundIsUndone := by
  unfold Obligations.RoundIsUndone
  intro T key k
  exact ⟨fun p => ⟨(roundWith_snd T key k p).symm, (roundWith_recovers_snd T key k p).symm,
    roundWith_swapPair_roundWith T key k p⟩, roundWith_bijective T key k⟩

/-! ### The schedule by its ranges (R83) -/

theorem forwardIndex_val (i : Nat) : (forwardIndex i).val = i % 8 := rfl

theorem reverseIndex_val (i : Nat) : (reverseIndex i).val = 7 - i % 8 :=
  Nat.mod_eq_of_lt (by omega)

theorem sched_encrypt_val (i : Nat) : (sched .encrypt i).val = if i < 24 then i % 8 else 7 - i % 8 := by
  rw [sched, apply_ite Fin.val, forwardIndex_val, reverseIndex_val]

theorem sched_decrypt_val (i : Nat) : (sched .decrypt i).val = if i < 8 then i % 8 else 7 - i % 8 := by
  rw [sched, apply_ite Fin.val, forwardIndex_val, reverseIndex_val]

/-- R84: round `i` of one direction and round `31 - i` of the other lie in passes of opposite sense, and
`(31 - i) mod 8 = 7 - (i mod 8)`. -/
theorem sched_decrypt_eq_mirror {i : Nat} (h : i ≤ 31) : sched .decrypt i = sched .encrypt (31 - i) := by
  have hmod : (31 - i) % 8 = 7 - i % 8 := by omega
  apply Fin.ext
  rw [sched_decrypt_val, sched_encrypt_val, hmod]
  by_cases h8 : i < 8
  · rw [if_pos h8, if_neg (by omega)]
    omega
  · rw [if_neg h8, if_pos (by omega)]

/-! ### The schedule in bit terms (R85) -/

theorem lowBits_toNat (i : BitVec 5) : (i.extractLsb' 0 3).toNat = i.toNat % 8 := by
  rw [BitVec.extractLsb'_toNat, Nat.shiftRight_zero]

theorem not_lowBits_toNat (i : BitVec 5) : (~~~(i.extractLsb' 0 3)).toNat = 7 - i.toNat % 8 := by
  rw [BitVec.toNat_not, lowBits_toNat]

/-- Two bits above the low three number the four passes of eight rounds. -/
theorem pass_toNat (i : BitVec 5) : (i.extractLsb' 3 2).toNat = i.toNat / 8 := by
  rw [BitVec.extractLsb'_toNat, Nat.shiftRight_eq_div_pow]
  omega

/-- The encrypt schedule is reverse in pass 3, which is rounds 24 to 31. -/
theorem schedBits_encrypt_toNat (i : BitVec 5) :
    (schedBits .encrypt i).toNat = if i.toNat < 24 then i.toNat % 8 else 7 - i.toNat % 8 := by
  have hpass : (i.extractLsb' 3 2 == 3) = true ↔ ¬ i.toNat < 24 := by
    rw [beq_iff_eq, BitVec.toNat_eq, pass_toNat, show (3 : BitVec 2).toNat = 3 from rfl]
    omega
  simp only [schedBits, hpass, ite_not, apply_ite BitVec.toNat, lowBits_toNat, not_lowBits_toNat]

/-- The decrypt schedule is forward in pass 0 only, which is rounds 0 to 7. -/
theorem schedBits_decrypt_toNat (i : BitVec 5) :
    (schedBits .decrypt i).toNat = if i.toNat < 8 then i.toNat % 8 else 7 - i.toNat % 8 := by
  have hpass : (i.extractLsb' 3 2 != 0) = true ↔ ¬ i.toNat < 8 := by
    rw [bne_iff_ne, ne_eq, BitVec.toNat_eq, pass_toNat, show (0 : BitVec 2).toNat = 0 from rfl]
    omega
  simp only [schedBits, hpass, ite_not, apply_ite BitVec.toNat, lowBits_toNat, not_lowBits_toNat]

theorem sched_val_eq_schedBits (d : Direction) {i : Nat} (h : i ≤ 31) :
    (sched d i).val = (schedBits d (BitVec.ofNat 5 i)).toNat := by
  have hi : (BitVec.ofNat 5 i).toNat = i := Nat.mod_eq_of_lt (by omega)
  cases d with
  | encrypt => rw [sched_encrypt_val, schedBits_encrypt_toNat, hi]
  | decrypt => rw [sched_decrypt_val, schedBits_decrypt_toNat, hi]

/-- Settles O17: the ranges are the branches of the schedule's value. -/
theorem keyScheduleRangesMirrorBits : Obligations.KeyScheduleRangesMirrorBits := by
  unfold Obligations.KeyScheduleRangesMirrorBits
  refine ⟨fun i h => ?_, fun i h _ => ?_, fun i h => ?_, fun i h _ => ?_, fun i h => sched_decrypt_eq_mirror h,
    fun d i h => sched_val_eq_schedBits d h⟩
  · rw [sched_encrypt_val, if_pos (by omega)]
  · rw [sched_encrypt_val, if_neg (by omega)]
  · rw [sched_decrypt_val, if_pos (by omega)]
  · rw [sched_decrypt_val, if_neg (by omega)]

end Sys2Proof.Machine
end

section
/-! PROOFS. The block core (42_block_core.md R90 to R95): the shape of `crypt`, each direction undone by the other, the tables and
keys that make it trivial or symmetric, and the operations ENCB and DECB. -/

namespace Sys2Proof.Machine

/-! ### The last round and the final swap (R91) -/

theorem cryptWith_eq_swapPair_last_round (T : SboxTables) (key : Key) (d : Direction) (p : Pair) :
    cryptWith T key d p = swapPair (roundWith T key (sched d 31) (roundsWith T key d 31 p)) := rfl

/-- Settles O18: the final swap takes back the exchange of round 31, whose value is written out by the two halves. -/
theorem lastRoundDoesNotExchange : Obligations.LastRoundDoesNotExchange := by
  unfold Obligations.LastRoundDoesNotExchange
  intro T key d p
  rw [cryptWith_eq_swapPair_last_round, swapPair, roundWith_fst, roundWith_snd]

/-! ### The two directions undo each other (R95) -/

/-- R84 read from the encrypt side. -/
theorem sched_encrypt_eq_mirror {i : Nat} (h : i ≤ 31) : sched .encrypt i = sched .decrypt (31 - i) := by
  rw [sched_decrypt_eq_mirror (Nat.sub_le 31 i), Nat.sub_sub_self h]

section
variable {T : SboxTables} {key : Key} {d d' : Direction}

/-- Under mirrored schedules the first `n` rounds of `d'`, started at the swapped result of `m + n` rounds of `d`, take back the
last `n` of them (R81 once for each round). -/
theorem roundsWith_swapPair_roundsWith {n m : Nat} (hmirror : ∀ i ≤ 31, sched d' i = sched d (31 - i))
    (hn : m + n = 32) (p : Pair) :
    roundsWith T key d' n (swapPair (roundsWith T key d 32 p)) = swapPair (roundsWith T key d m p) := by
  induction n generalizing m with
  | zero => rw [roundsWith, show m = 32 by omega]
  | succ n ih =>
    have hsched : sched d' n = sched d m := by
      rw [hmirror n (by omega), show 31 - n = m by omega]
    rw [roundsWith, ih (show (m + 1) + n = 32 by omega), roundsWith, hsched, roundWith_swapPair_roundWith]

/-- R95 for one order of the two directions. -/
theorem cryptWith_cryptWith (hmirror : ∀ i ≤ 31, sched d' i = sched d (31 - i)) (p : Pair) :
    cryptWith T key d' (cryptWith T key d p) = p :=
  congrArg swapPair (roundsWith_swapPair_roundsWith hmirror (Nat.zero_add 32) p)

end

/-- Settles O21: the schedules of the two directions are each other's mirror (R84). -/
theorem decryptionInvertsEncryption : Obligations.DecryptionInvertsEncryption := by
  unfold Obligations.DecryptionInvertsEncryption
  intro T key p
  exact ⟨cryptWith_cryptWith (fun _ h => sched_decrypt_eq_mirror h) p,
    cryptWith_cryptWith (fun _ h => sched_encrypt_eq_mirror h) p⟩

/-! ### All-zero tables -/

theorem substituteByte_tablesZero (j : Fin 4) (b : Byte) : substituteByte tablesZero j b = 0 := by
  show (0 : Nibble) ++ (0 : Nibble) = (0 : Byte)
  decide

theorem mixWith_tablesZero (key : Key) (k : KeyIndex) (x : Word) : mixWith tablesZero key k x = 0 := by
  rw [mixWith, substituteWith]
  simp only [substituteByte_tablesZero]
  decide

/-- With nothing mixed in, a round only exchanges the halves. -/
theorem roundWith_tablesZero (key : Key) (k : KeyIndex) (p : Pair) : roundWith tablesZero key k p = swapPair p := by
  refine Prod.ext ?_ rfl
  rw [roundWith_fst, mixWith_tablesZero]
  exact BitVec.xor_zero

theorem roundsWith_tablesZero_even (key : Key) (d : Direction) (n : Nat) (p : Pair) :
    roundsWith tablesZero key d (2 * n) p = p := by
  induction n with
  | zero => rfl
  | succ n ih =>
    rw [show 2 * (n + 1) = 2 * n + 1 + 1 by omega, roundsWith, roundsWith, ih, roundWith_tablesZero, roundWith_tablesZero,
      swapPair_swapPair]

theorem cryptWith_tablesZero (key : Key) (d : Direction) (p : Pair) : cryptWith tablesZero key d p = swapPair p :=
  congrArg swapPair (roundsWith_tablesZero_even key d 16 p)

/-! ### Equal key words (R94) -/

/-- A round depends on the schedule through the subkey that it selects. -/
theorem roundWith_eq_of_subkey_eq (T : SboxTables) {key : Key} {j k : KeyIndex} (h : key[j] = key[k]) (p : Pair) :
    roundWith T key j p = roundWith T key k p := by
  rw [roundWith, roundWith, mixWith, mixWith, h]

theorem roundsWith_direction_irrelevant (T : SboxTables) {key : Key} {v : Word} (hkey : ∀ i : KeyIndex, key[i] = v)
    (d d' : Direction) (n : Nat) (p : Pair) : roundsWith T key d n p = roundsWith T key d' n p := by
  induction n with
  | zero => rfl
  | succ n ih =>
    rw [roundsWith, roundsWith, ih]
    exact roundWith_eq_of_subkey_eq T ((hkey _).trans (hkey _).symm) _

theorem cryptWith_direction_irrelevant (T : SboxTables) {key : Key} {v : Word} (hkey : ∀ i : KeyIndex, key[i] = v)
    (d d' : Direction) (p : Pair) : cryptWith T key d p = cryptWith T key d' p :=
  congrArg swapPair (roundsWith_direction_irrelevant T hkey d d' 32 p)

/-! ### ENCB and DECB (R93, R94) -/

theorem exec_encb (s : State) : exec .encb s = .next (s.offer ⟨.encb, 0⟩ fun a => (opCrypt a).complete) := rfl

theorem exec_decb (s : State) : exec .decb s = .next (s.offer ⟨.decb, 0⟩ fun a => (opCrypt a).complete) := rfl

/-- The example of R93. -/
theorem cryptWith_encrypt_example :
    cryptWith tablesId #v[0x0123, 0x4567, 0x89AB, 0xCDEF, 0x0123, 0x4567, 0x89AB, 0xCDEF] .encrypt (0x48656C6C, 0x6F20776F)
      = (0x13991184, 0x42109FA4) := by
  decide

/-- The example of R94 is that of R93 read backwards. -/
theorem cryptWith_decrypt_example :
    cryptWith tablesId #v[0x0123, 0x4567, 0x89AB, 0xCDEF, 0x0123, 0x4567, 0x89AB, 0xCDEF] .decrypt (0x13991184, 0x42109FA4)
      = (0x48656C6C, 0x6F20776F) := by
  rw [← cryptWith_encrypt_example]
  exact cryptWith_cryptWith (fun _ h => sched_decrypt_eq_mirror h) _

/-- Settles O19: ENCB latches the encrypt direction, replaces the pair by `crypt` of it, and completes. -/
theorem encbCompletes : Obligations.EncbCompletes := by
  unfold Obligations.EncbCompletes
  refine ⟨fun s hidle => ?_, fun s => ?_, decode_command_word (cmd := ⟨.encb, 0⟩) rfl,
    fun key p => cryptWith_tablesZero key .encrypt p, cryptWith_encrypt_example⟩
  · exact exec_completes_with_pair (exec_encb s) hidle (.inl rfl) (crypt s.k .encrypt (s.n1, s.n2)) rfl
  · exact protocolHolds_of_offer (exec_encb s) rfl (.inl rfl) rfl rfl rfl rfl

/-- Settles O20: DECB latches the decrypt direction, replaces the pair by `crypt` of it, and completes. -/
theorem decbCompletes : Obligations.DecbCompletes := by
  unfold Obligations.DecbCompletes
  refine ⟨fun s hidle => ?_, fun s => ?_, decode_command_word (cmd := ⟨.decb, 0⟩) rfl,
    fun T key v hkey p => cryptWith_direction_irrelevant T hkey .decrypt .encrypt p, cryptWith_decrypt_example⟩
  · exact exec_completes_with_pair (exec_decb s) hidle (.inl rfl) (crypt s.k .decrypt (s.n1, s.n2)) rfl
  · exact protocolHolds_of_offer (exec_decb s) rfl (.inl rfl) rfl rfl rfl rfl

end Sys2Proof.Machine
end

section
/-! PROOFS. Simple replacement over the buffer (43_simple_replacement.md R100 to R110): ENCODE and DECODE as one command that a
direction selects, what that command leaves when it is accepted, and from it the window's transform, the range check, the
empty buffer and the round trip. -/

namespace Sys2Proof.Machine

/-! ### ENCODE and DECODE, by direction (R101, R102) -/

/-- The buffer command of a direction: ENCODE encrypts, DECODE decrypts (R48). -/
def bufferCommand : Direction → Command
  | .encrypt => ⟨.encode, 0⟩
  | .decrypt => ⟨.decode, 0⟩

theorem exec_bufferCommand (d : Direction) (s : State) :
    exec (bufferCommand d).toInstr s = .next (s.offer (bufferCommand d) runBuffer) := by
  cases d <;> rfl

theorem bufferCommand_usesBuffer (d : Direction) : usesBuffer (bufferCommand d).op = true := by
  cases d <;> rfl

theorem bufferCommand_wellFormed (d : Direction) : (bufferCommand d).wellFormed = true := by
  cases d <;> rfl

/-- Acceptance of a buffer command latches its direction (44_host_transactions.md R118). -/
@[simp] theorem accept_bufferCommand_dir (d : Direction) (s : State) : (s.accept (bufferCommand d)).dir = d := by
  cases d <;> rfl

theorem accept_bufferCommand_bufferBusy (d : Direction) (s : State) : (s.accept (bufferCommand d)).bufferBusy = true :=
  bufferCommand_usesBuffer d

theorem exists_eq_bufferCommand_toInstr {i : Instr} (h : i = .encode ∨ i = .decode) : ∃ d, i = (bufferCommand d).toInstr := by
  rcases h with rfl | rfl
  · exact ⟨.encrypt, rfl⟩
  · exact ⟨.decrypt, rfl⟩

/-! ### The range check (R105, 60_exceptions.md R134) -/

section
variable {d : Direction} {s : State}

theorem exec_bufferCommand_of_range (hidle : s.phase = .idle) (hrange : 2 ^ 32 < s.bufAddr.toNat + s.bufLen.toNat) :
    exec (bufferCommand d).toInstr s = .next (s.raise .range) := by
  rw [exec_bufferCommand, offer_of_range hidle (bufferCommand_usesBuffer d) ((rangeExceeded_eq_true s).2 hrange)]

/-- A write of the command word to `CTRL` is checked like the command itself. -/
theorem exec_wr_ctrl_bufferCommand_of_range (hidle : s.phase = .idle)
    (hrange : 2 ^ 32 < s.bufAddr.toNat + s.bufLen.toNat) :
    exec (.wr .ctrl (bufferCommand d).word) s = .next (s.raise .range) := by
  rw [exec_wr_of_idle hidle, writeIdle, offerWord, decodeCommand_word (bufferCommand_wellFormed d)]
  exact congrArg _ (offer_of_range hidle (bufferCommand_usesBuffer d) ((rangeExceeded_eq_true s).2 hrange))

theorem exec_bufferCommand_of_accepted (hidle : s.phase = .idle)
    (hrange : s.bufAddr.toNat + s.bufLen.toNat ≤ 2 ^ 32) :
    exec (bufferCommand d).toInstr s = .next (runBuffer (s.accept (bufferCommand d))) := by
  rw [exec_bufferCommand, offer_of_accepted hidle (.inr ((rangeExceeded_eq_false s).2 hrange))]

theorem exec_wr_ctrl_bufferCommand_of_accepted (hidle : s.phase = .idle)
    (hrange : s.bufAddr.toNat + s.bufLen.toNat ≤ 2 ^ 32) :
    exec (.wr .ctrl (bufferCommand d).word) s = .next (s.accept (bufferCommand d)) :=
  exec_wr_ctrl_of_accepted hidle (bufferCommand_wellFormed d) (.inr ((rangeExceeded_eq_false s).2 hrange))

end

/-- No byte address of a full block wraps when the buffer is in range (R105). -/
theorem blockByte_toNat {s : State} (hrange : s.bufAddr.toNat + s.bufLen.toNat ≤ 2 ^ 32) {j i : Nat}
    (hj : j < s.bufLen.toNat / 8) (hi : i < 8) :
    (blockAddr s.bufAddr j + BitVec.ofNat 32 i).toNat = s.bufAddr.toNat + 8 * j + i := by
  rw [BitVec.toNat_add, blockAddr_toNat hrange (by omega), BitVec.toNat_ofNat]
  omega

/-- Settles O26: the check stands at the offer, which the command and the `CTRL` write share, and in range a block ends inside
the buffer. -/
theorem rangeIsCheckedAtTheCommand : Obligations.RangeIsCheckedAtTheCommand := by
  unfold Obligations.RangeIsCheckedAtTheCommand
  intro s hidle
  refine ⟨fun hrange i hi => ?_, fun hrange => ⟨?_, ?_, fun j i hj hi => blockByte_toNat hrange hj hi⟩⟩
  · rcases hi with rfl | rfl | rfl | rfl
    · exact exec_bufferCommand_of_range (d := .encrypt) hidle hrange
    · exact exec_bufferCommand_of_range (d := .decrypt) hidle hrange
    · exact exec_wr_ctrl_bufferCommand_of_range (d := .encrypt) hidle hrange
    · exact exec_wr_ctrl_bufferCommand_of_range (d := .decrypt) hidle hrange
  · exact ⟨_, exec_wr_ctrl_bufferCommand_of_accepted (d := .encrypt) hidle hrange, rfl, rfl⟩
  · exact ⟨_, exec_wr_ctrl_bufferCommand_of_accepted (d := .decrypt) hidle hrange, rfl, rfl⟩

/-! ### No full block (R110) -/

section
variable {d : Direction} {s : State}

theorem accept_cnt_toNat (c : Command) : (s.accept c).cnt.toNat = s.bufLen.toNat / 8 :=
  blockCount_toNat s

theorem accept_cnt_eq_zero (c : Command) (hlen : s.bufLen.toNat < 8) : (s.accept c).cnt = 0 :=
  BitVec.eq_of_toNat_eq ((accept_cnt_toNat c).trans (Nat.div_eq_of_lt hlen))

theorem runBuffer_of_no_block (hcnt : s.cnt = 0) : runBuffer s = s.complete :=
  if_pos hcnt

/-- Acceptance and completion with nothing between them set `DONE`. -/
theorem accept_complete_eq (c : Command) (hidle : s.phase = .idle) :
    (s.accept c).complete = withSequencerOf { s with done := true } (s.accept c).complete := by
  rw [withSequencerOf, hidle]
  rfl

theorem exec_bufferCommand_of_no_block (hidle : s.phase = .idle) (hrange : s.bufAddr.toNat + s.bufLen.toNat ≤ 2 ^ 32)
    (hlen : s.bufLen.toNat < 8) :
    ∃ t, exec (bufferCommand d).toInstr s = .next t ∧ t = withSequencerOf { s with done := true } t := by
  refine ⟨_, exec_bufferCommand_of_accepted hidle hrange, ?_⟩
  rw [runBuffer_of_no_block (accept_cnt_eq_zero _ hlen)]
  exact accept_complete_eq _ hidle

/-- The engine, at its load with no block left, asks for no memory access and completes (R103). -/
theorem request_of_no_block (hload : s.bph = .load) (hcnt : s.cnt = 0) : s.request = none := by
  simp [State.request, hload, hcnt]

theorem engineStep_of_no_block (hbusy : s.bufferBusy = true) (hload : s.bph = .load) (hcnt : s.cnt = 0) :
    engineStep s = s.complete := by
  rw [engineStep_of_buffer hbusy, bufferStep, hload]
  exact if_pos hcnt

theorem exec_wr_ctrl_bufferCommand_of_no_block (hidle : s.phase = .idle)
    (hrange : s.bufAddr.toNat + s.bufLen.toNat ≤ 2 ^ 32) (hlen : s.bufLen.toNat < 8) :
    ∃ a, exec (.wr .ctrl (bufferCommand d).word) s = .next a ∧ a.request = none ∧
      engineStep a = withSequencerOf { s with done := true } (engineStep a) := by
  have hcnt := accept_cnt_eq_zero (bufferCommand d) hlen
  refine ⟨_, exec_wr_ctrl_bufferCommand_of_accepted hidle hrange, request_of_no_block rfl hcnt, ?_⟩
  rw [engineStep_of_no_block (accept_bufferCommand_bufferBusy d s) rfl hcnt]
  exact accept_complete_eq _ hidle

end

/-- Settles O27: `CNT` is 0 at acceptance, so that the command, and likewise the engine's first step, only completes. -/
theorem noFullBlockCompletes : Obligations.NoFullBlockCompletes := by
  unfold Obligations.NoFullBlockCompletes
  intro s hidle hrange hlen
  exact ⟨exec_bufferCommand_of_no_block (d := .encrypt) hidle hrange hlen,
    exec_bufferCommand_of_no_block (d := .decrypt) hidle hrange hlen,
    exec_wr_ctrl_bufferCommand_of_no_block (d := .encrypt) hidle hrange hlen,
    exec_wr_ctrl_bufferCommand_of_no_block (d := .decrypt) hidle hrange hlen⟩

/-! ### The window transformed (R101, R102, R104, R106) -/

/-- `s` with the blocks of its buffer transformed and the operation completed: what an accepted buffer command leaves, the
hidden sequencing registers aside. -/
def bufferDone (d : Direction) (s : State) : State :=
  let r := bufferWith Config.sbox s.k d s.bufAddr (s.bufLen.toNat / 8) s.mem s.pair
  { s with n1 := r.2.1, n2 := r.2.2, mem := r.1, phase := .idle, done := true }

section
variable {d : Direction} {s t : State}

/-- An accepted buffer command that need not wait for the memory leaves `bufferDone`; with no full block that is completion
alone. -/
theorem runBuffer_accept (hready : s.memReady = true ∨ s.bufLen.toNat < 8) :
    runBuffer (s.accept (bufferCommand d)) =
      withSequencerOf (bufferDone d s) (runBuffer (s.accept (bufferCommand d))) := by
  have hcount := accept_cnt_toNat (s := s) (bufferCommand d)
  rcases runBuffer_cases (s.accept (bufferCommand d)) with ⟨hcnt, hrun⟩ | ⟨hcnt, hmem, -⟩ | ⟨-, -, hrun⟩
  · rw [hcnt] at hcount
    rw [hrun, bufferDone, ← hcount]
    rfl
  · rcases hready with hready | hlen
    · exact absurd (hready.symm.trans hmem) (by decide)
    · exact absurd (accept_cnt_eq_zero _ hlen) hcnt
  · rw [hrun, accept_bufferCommand_dir, hcount]
    rfl

/-- `bufferDone` has the effect of R101 or R102, block by block. -/
theorem bufferResult_of_eq_bufferDone (hidle : s.phase = .idle) (hrange : s.bufAddr.toNat + s.bufLen.toNat ≤ 2 ^ 32)
    (h : t = withSequencerOf (bufferDone d s) t) : BufferResult d s t := by
  have hn1 : t.n1 = (bufferDone d s).n1 := (congrArg State.n1 h :)
  have hn2 : t.n2 = (bufferDone d s).n2 := (congrArg State.n2 h :)
  have hmem : t.mem = (bufferDone d s).mem := (congrArg State.mem h :)
  have hpair : t.pair = (bufferDone d s).pair := (congrArg State.pair h :)
  have hfit : 8 * (s.bufLen.toNat / 8) ≤ 2 ^ 32 := by omega
  refine ⟨fun j hj => ?_, fun a ha => ?_, ?_, ?_⟩
  · rw [hmem]
    exact bufferWith_block _ _ _ _ _ _ _ hfit hj
  · rw [hmem]
    exact bufferWith_read_outside _ _ _ _ _ _ _ _ fun j hj i hi => ne_of_not_inWindow hrange ha hj hi
  · rw [hpair]
    exact bufferWith_pair _ _ _ _ _ _ _ hfit
  · rw [hn1, hn2, hmem, withSequencerOf, hidle]
    exact h

theorem exec_bufferCommand_result (hidle : s.phase = .idle) (hrange : s.bufAddr.toNat + s.bufLen.toNat ≤ 2 ^ 32)
    (hready : s.memReady = true ∨ s.bufLen.toNat < 8) :
    ∃ t, exec (bufferCommand d).toInstr s = .next t ∧ BufferResult d s t :=
  ⟨_, exec_bufferCommand_of_accepted hidle hrange,
    bufferResult_of_eq_bufferDone hidle hrange (runBuffer_accept hready)⟩

theorem protocolHolds_bufferCommand (hrange : s.bufAddr.toNat + s.bufLen.toNat ≤ 2 ^ 32)
    (hready : s.memReady = true ∨ s.bufLen.toNat < 8) :
    ProtocolHolds (bufferCommand d).word (bufferCommand d).toInstr s := by
  have hrun := runBuffer_accept (d := d) hready
  exact protocolHolds_of_offer (exec_bufferCommand d s) (bufferCommand_wellFormed d)
    (.inr ((rangeExceeded_eq_false s).2 hrange)) (congrArg State.phase hrun :) (congrArg State.done hrun :)
    (congrArg State.err hrun :) (congrArg State.errCode hrun :)

end

/-- The example of R101: two full blocks encrypted, the remainder of three bytes as it was. -/
theorem bufferWith_encrypt_example :
    memRead (bufferWith tablesId #v[0x0123, 0x4567, 0x89AB, 0xCDEF, 0x0123, 0x4567, 0x89AB, 0xCDEF] .encrypt 0x1000 2
        (memWrite [] 0x1000
          [0x48, 0x65, 0x6C, 0x6C, 0x6F, 0x20, 0x77, 0x6F, 0x72, 0x6C, 0x64, 0x2C, 0x20, 0x74, 0x68, 0x69, 0x73, 0x20, 0x69])
        (0, 0)).1 0x1000 19 =
      [0x13, 0x99, 0x11, 0x84, 0x42, 0x10, 0x9F, 0xA4, 0x4C, 0x80, 0x5D, 0x88, 0x98, 0x8F, 0x06, 0x47, 0x73, 0x20, 0x69] := by
  decide

/-- The example of R102, that of R101 read backwards. -/
theorem bufferWith_decrypt_example :
    memRead (bufferWith tablesId #v[0x0123, 0x4567, 0x89AB, 0xCDEF, 0x0123, 0x4567, 0x89AB, 0xCDEF] .decrypt 0x1000 2
        (memWrite [] 0x1000
          [0x13, 0x99, 0x11, 0x84, 0x42, 0x10, 0x9F, 0xA4, 0x4C, 0x80, 0x5D, 0x88, 0x98, 0x8F, 0x06, 0x47, 0x73, 0x20, 0x69])
        (0, 0)).1 0x1000 19 =
      [0x48, 0x65, 0x6C, 0x6C, 0x6F, 0x20, 0x77, 0x6F, 0x72, 0x6C, 0x64, 0x2C, 0x20, 0x74, 0x68, 0x69, 0x73, 0x20, 0x69] := by
  decide

/-- Settles O24: ENCODE is the buffer command of the encrypt direction. -/
theorem encodeTransformsTheWindow : Obligations.EncodeTransformsTheWindow := by
  unfold Obligations.EncodeTransformsTheWindow
  exact ⟨fun s hidle hrange hready => exec_bufferCommand_result (d := .encrypt) hidle hrange hready,
    fun s hidle hrange => exec_bufferCommand_of_range (d := .encrypt) hidle hrange,
    fun s hrange hready => protocolHolds_bufferCommand (d := .encrypt) hrange hready,
    decode_command_word (bufferCommand_wellFormed .encrypt), bufferWith_encrypt_example⟩

/-- Settles O25: DECODE is the buffer command of the decrypt direction. -/
theorem decodeTransformsTheWindow : Obligations.DecodeTransformsTheWindow := by
  unfold Obligations.DecodeTransformsTheWindow
  exact ⟨fun s hidle hrange hready => exec_bufferCommand_result (d := .decrypt) hidle hrange hready,
    fun s hidle hrange => exec_bufferCommand_of_range (d := .decrypt) hidle hrange,
    fun s hrange hready => protocolHolds_bufferCommand (d := .decrypt) hrange hready,
    decode_command_word (bufferCommand_wellFormed .decrypt), bufferWith_decrypt_example⟩

/-! ### Equal blocks (R107) -/

section
variable {d : Direction} {s t : State}

/-- Whatever a buffer command answers, idle, in range and with the memory answering, has the effect of R101 or R102. -/
theorem bufferResult_of_exec (hidle : s.phase = .idle) (hrange : s.bufAddr.toNat + s.bufLen.toNat ≤ 2 ^ 32)
    (hready : s.memReady = true) (hexec : exec (bufferCommand d).toInstr s = .next t) : BufferResult d s t := by
  obtain ⟨t', hexec', hresult⟩ := exec_bufferCommand_result (d := d) hidle hrange (.inl hready)
  cases hexec.symm.trans hexec'
  exact hresult

end

/-- Settles O28: the new block is `crypt` of the key, the direction and the old block. -/
theorem equalBlocksGiveEqualBlocks : Obligations.EqualBlocksGiveEqualBlocks := by
  unfold Obligations.EqualBlocksGiveEqualBlocks
  intro i s₁ s₂ t₁ t₂ j₁ j₂ hi hidle₁ hidle₂ hready₁ hready₂ hrange₁ hrange₂ hexec₁ hexec₂ hj₁ hj₂ hkey hblock
  obtain ⟨d, rfl⟩ := exists_eq_bufferCommand_toInstr hi
  obtain ⟨hblocks₁, -⟩ := bufferResult_of_exec hidle₁ hrange₁ hready₁ hexec₁
  obtain ⟨hblocks₂, -⟩ := bufferResult_of_exec hidle₂ hrange₂ hready₂ hexec₂
  rw [hblocks₁ j₁ hj₁, hblocks₂ j₂ hj₂, hkey, hblock]

/-! ### The round trip (R108) -/

section
variable {d d' : Direction} {s t u : State}

/-- What a second buffer operation needs of the state that the first one leaves. -/
theorem bufferResult_keeps (h : BufferResult d s t) :
    t.k = s.k ∧ t.bufAddr = s.bufAddr ∧ t.bufLen = s.bufLen ∧ t.phase = s.phase ∧ t.memReady = s.memReady := by
  obtain ⟨-, -, -, hframe⟩ := h
  exact ⟨(congrArg State.k hframe :), (congrArg State.bufAddr hframe :), (congrArg State.bufLen hframe :),
    (congrArg State.phase hframe :), (congrArg State.memReady hframe :)⟩

/-- Two buffer operations one after the other, of directions whose schedules are each other's mirror (R84), restore every byte:
in the window because each block is decrypted again (R95), outside because neither touches it. -/
theorem read_of_bufferResult_bufferResult (hmirror : ∀ i ≤ 31, sched d' i = sched d (31 - i))
    (hs : BufferResult d s t) (ht : BufferResult d' t u) (a : Word) : u.mem.read a = s.mem.read a := by
  obtain ⟨hkey, haddr, hlen, -, -⟩ := bufferResult_keeps hs
  obtain ⟨hblocks, houtside, -, -⟩ := hs
  obtain ⟨hblocks', houtside', -, -⟩ := ht
  have hwindow : t.inWindow a = s.inWindow a := by rw [State.inWindow, State.inWindow, haddr, hlen]
  cases ha : s.inWindow a with
  | true =>
    obtain ⟨j, i, hj, hi, rfl⟩ := block_of_inWindow ha
    rw [haddr, hlen, hkey] at hblocks'
    refine read_eq_of_loadBlock ?_ hi
    rw [hblocks' j hj, hblocks j hj]
    exact cryptWith_cryptWith hmirror _
  | false => rw [houtside' a (hwindow.trans ha), houtside a ha]

theorem execAll_bufferCommands_restore (hmirror : ∀ i ≤ 31, sched d' i = sched d (31 - i)) (hidle : s.phase = .idle)
    (hrange : s.bufAddr.toNat + s.bufLen.toNat ≤ 2 ^ 32) (hready : s.memReady = true) :
    ∃ u, execAll [(bufferCommand d).toInstr, (bufferCommand d').toInstr] s = .next u ∧
      ∀ a, u.mem.read a = s.mem.read a := by
  obtain ⟨t, hexec, hresult⟩ := exec_bufferCommand_result (d := d) hidle hrange (.inl hready)
  obtain ⟨-, haddr, hlen, hphase, hmemReady⟩ := bufferResult_keeps hresult
  rw [← haddr, ← hlen] at hrange
  obtain ⟨u, hexec', hresult'⟩ :=
    exec_bufferCommand_result (d := d') (hphase.trans hidle) hrange (.inl (hmemReady.trans hready))
  refine ⟨u, ?_, read_of_bufferResult_bufferResult hmirror hresult hresult'⟩
  simp only [execAll, hexec, hexec']

end

/-- The pair after loading it through `DATA0` and `DATA1` and then ENCB (R93, R115). -/
theorem execAll_load_encb {s : State} (hidle : s.phase = .idle) (p : Pair) :
    ∃ u, execAll [.wr .data0 p.1, .wr .data1 p.2, .encb] s = .next u ∧ u.pair = crypt s.k .encrypt p := by
  obtain ⟨hencb, -⟩ := encbCompletes
  obtain ⟨u, hexec, hu⟩ := hencb (s.setPair p) hidle
  have hload0 : exec (.wr .data0 p.1) s = .next { s with n1 := p.1 } :=
    exec_wr_of_idle hidle .data0 p.1
  have hload1 : exec (.wr .data1 p.2) { s with n1 := p.1 } = .next (s.setPair p) :=
    exec_wr_of_idle (s := { s with n1 := p.1 }) hidle .data1 p.2
  refine ⟨u, ?_, congrArg State.pair hu⟩
  simp only [execAll, hload0, hload1, hexec]

/-- ENCODE of one block leaves the bytes of `crypt` of that block (R101). -/
theorem memRead_of_bufferResult_one_block {d : Direction} {s t : State} (hlen : s.bufLen = 8) (h : BufferResult d s t) :
    memRead t.mem s.bufAddr 8 = blockBytes (crypt s.k d (loadBlock s.mem s.bufAddr)) := by
  obtain ⟨hblocks, -⟩ := h
  have haddr : blockAddr s.bufAddr 0 = s.bufAddr := BitVec.add_zero _
  have hblock := hblocks 0 (by rw [hlen]; decide)
  rw [haddr] at hblock
  rw [← blockBytes_loadBlock, hblock]

/-- Settles O29: the two directions' schedules are each other's mirror, and one block by ENCODE and by ENCB is the same
`crypt`. -/
theorem bufferRoundTrip : Obligations.BufferRoundTrip := by
  unfold Obligations.BufferRoundTrip
  refine ⟨fun s hidle hrange hready => ⟨?_, ?_⟩, fun s hidle hready hlen hrange => ?_⟩
  · exact execAll_bufferCommands_restore (d := .encrypt) (d' := .decrypt) (fun _ h => sched_decrypt_eq_mirror h)
      hidle hrange hready
  · exact execAll_bufferCommands_restore (d := .decrypt) (d' := .encrypt) (fun _ h => sched_encrypt_eq_mirror h)
      hidle hrange hready
  · have hrange' : s.bufAddr.toNat + s.bufLen.toNat ≤ 2 ^ 32 := by rwa [hlen]
    obtain ⟨t, hencode, hresult⟩ := exec_bufferCommand_result (d := .encrypt) hidle hrange' (.inl hready)
    obtain ⟨u, hload, hpair⟩ := execAll_load_encb hidle (loadBlock s.mem s.bufAddr)
    refine ⟨t, u, hencode, hload, ?_⟩
    rw [memRead_of_bufferResult_one_block hlen hresult, ← hpair]
    rfl

end Sys2Proof.Machine
end

section
/-! PROOFS. Host transactions (44_host_transactions.md R115 to R118): what a write does idle and busy, what a read returns, and
the command word written to `CTRL`, from its check through acceptance to the engine's first step. -/

namespace Sys2Proof

/-! ### Slots and opcodes -/

/-- The slot number determines the slot (10_state.md R19). -/
@[simp] theorem Slot.ofNumber_number (slot : Slot) : Slot.ofNumber slot.number = slot := by
  cases slot with
  | key i => revert i; decide
  | _ => rfl

theorem Slot.eq_ofNumber {slot : Slot} {n : BitVec 4} (h : slot.number = n) : slot = Slot.ofNumber n := by
  rw [← h, Slot.ofNumber_number]

end Sys2Proof

namespace Sys2Proof.Machine

theorem usesBuffer_iff (op : Opcode) : usesBuffer op = true ↔ op = .encode ∨ op = .decode := by
  cases op <;> decide

theorem directionOf_eq (op : Opcode) : directionOf op = if op = .decb ∨ op = .decode then .decrypt else .encrypt := by
  cases op <;> rfl

/-! ### A command word written to `CTRL` while idle (R118) -/

section
variable {s : State} {c : Word} {cmd : Command}

/-- A word that decodes is offered to the engine. -/
theorem exec_wr_ctrl_of_decoded (h : s.phase = .idle) (hc : decodeCommand c = .ok cmd) :
    exec (.wr .ctrl c) s = .next (s.offer cmd id) := by
  rw [exec_wr_of_idle h, writeIdle, offerWord, hc]

/-- A legal word of a buffer command out of range is `RANGE` (60_exceptions.md R134). -/
theorem exec_wr_ctrl_of_range (h : s.phase = .idle) (hc : decodeCommand c = .ok cmd)
    (hop : cmd.op = .encode ∨ cmd.op = .decode) (hrange : 2 ^ 32 < s.bufAddr.toNat + s.bufLen.toNat) :
    exec (.wr .ctrl c) s = .next (s.raise .range) := by
  rw [exec_wr_ctrl_of_decoded h hc,
    offer_of_range h ((usesBuffer_iff cmd.op).2 hop) ((rangeExceeded_eq_true s).2 hrange)]

/-- Any other legal word is accepted: the check of the range concerns the buffer commands only. -/
theorem exec_wr_ctrl_of_decoded_inRange (h : s.phase = .idle) (hc : decodeCommand c = .ok cmd)
    (hrange : cmd.op = .encode ∨ cmd.op = .decode → s.bufAddr.toNat + s.bufLen.toNat ≤ 2 ^ 32) :
    exec (.wr .ctrl c) s = .next (s.accept cmd) := by
  have hcheck : usesBuffer cmd.op = false ∨ s.rangeExceeded = false := by
    cases hb : usesBuffer cmd.op with
    | false => exact .inl rfl
    | true => exact .inr ((rangeExceeded_eq_false s).2 (hrange ((usesBuffer_iff cmd.op).1 hb)))
  rw [exec_wr_ctrl_of_decoded h hc, offer_of_accepted h hcheck, id]

end

/-- The block count of acceptance as a number of 29 bits (43_simple_replacement.md R100). -/
theorem blockCount_eq (s : State) : s.blockCount = BitVec.ofNat 29 (s.bufLen.toNat / 8) := by
  rw [← blockCount_toNat, BitVec.ofNat_toNat, BitVec.setWidth_eq]

/-- The registers of acceptance (R118), with the direction and the block count written out. -/
theorem accept_eq (s : State) (c : Command) : s.accept c = { s with
    opc := some c.op, ksel := c.kidx, dir := if c.op = .decb ∨ c.op = .decode then .decrypt else .encrypt,
    rc := 0, bph := .load, ptr := s.bufAddr, cnt := BitVec.ofNat 29 (s.bufLen.toNat / 8),
    readEarly := (s.accept c).readEarly, storedEarly := (s.accept c).storedEarly, phase := .run, done := false } := by
  rw [← directionOf_eq, ← blockCount_eq]
  rfl

/-- The first engine step after acceptance is a step of the operation that was accepted. -/
theorem engineStep_accept (s : State) (c : Command) : engineStep (s.accept c) = operationStep c.op (s.accept c) := rfl

/-- Settles O34: the offer's checks are those of the rule, an accepted word leaves `State.accept`, and the step that follows is
that of the latched operation. -/
theorem commandIsAccepted : Obligations.CommandIsAccepted := by
  unfold Obligations.CommandIsAccepted
  intro s c hidle
  refine ⟨exec_wr_ctrl_of_illegal hidle, fun cmd hc => ⟨exec_wr_ctrl_of_range hidle hc, fun hrange => ?_⟩⟩
  refine ⟨s.accept cmd, exec_wr_ctrl_of_decoded_inRange hidle hc hrange, accept_eq s cmd, ?_⟩
  rw [engineStep_accept]
  refine ⟨?round, ?subst, ?add32, ?addm1, ?blockCore, ?buffer⟩
  case blockCore | buffer => rintro (hop | hop) <;> rw [hop] <;> rfl
  all_goals
    intro hop
    rw [hop]
    rfl

/-! ### Writes (R115, R116) -/

/-- Settles O30: each slot is an arm of the idle write; a key write is `setKey`, whose other words stay. -/
theorem writeWhileIdle : Obligations.WriteWhileIdle := by
  unfold Obligations.WriteWhileIdle
  intro s v hidle
  have hwrite (slot : Slot) : exec (.wr slot v) s = .next (writeIdle slot v s) := exec_wr_of_idle hidle slot v
  refine ⟨fun i => ?_, hwrite .data0, hwrite .data1, hwrite .bufAddr, hwrite .bufLen, hwrite .ctrl, ?_,
    hwrite .reservedE, hwrite .reservedF⟩
  · exact ⟨(s.setKey i v).k, hwrite (.key i), State.key_setKey_same s i v,
      fun j hj => State.key_setKey_other s i j v hj.symm⟩
  · rw [exec_wr_status, State.writeStatus_eq]

theorem exec_wr_of_busy {s : State} (h : s.phase = .run) (slot : Slot) (v : Word) :
    exec (.wr slot v) s = .next (writeBusy slot v s) := by
  have hexec : exec (.wr slot v) s = .next (if s.busy then writeBusy slot v s else writeIdle slot v s) := rfl
  rw [hexec, if_pos ((State.busy_iff s).2 h)]

/-- Slots 0x0 to 0xC are those whose write is dropped while busy. -/
theorem writeBusy_of_number_le {slot : Slot} (h : slot.number.toNat ≤ 0xC) (v : Word) (s : State) :
    writeBusy slot v s = s.raise .busyWrite := by
  cases slot with
  | status | reservedE | reservedF => exact absurd h (by decide)
  | _ => rfl

/-- Settles O31: a slot above 0xC is the one that its number selects. -/
theorem writeWhileBusy : Obligations.WriteWhileBusy := by
  unfold Obligations.WriteWhileBusy
  intro s slot v hbusy
  refine ⟨fun hle => ?_, fun hreserved => ?_, fun hstatus => ?_⟩
  · rw [exec_wr_of_busy hbusy, writeBusy_of_number_le hle]
    rfl
  · rw [exec_wr_of_busy hbusy]
    rcases hreserved with h | h <;>
    · rw [Slot.eq_ofNumber h]
      rfl
  · obtain rfl : slot = .status := Slot.eq_ofNumber hstatus
    rw [exec_wr_status, State.writeStatus_eq]

/-! ### Reads (R117) -/

theorem exec_rd (s : State) (slot : Slot) : exec (.rd slot) s = .next { s with rdata := readSlot s slot } := rfl

/-- A half of the pair reads 0 while busy. -/
theorem ite_busy_eq (s : State) (w : Word) : (if s.busy then 0 else w) = if s.phase = .idle then w else 0 := by
  cases h : s.phase <;> simp [State.busy, h]

theorem busy_eq_decide (s : State) : s.busy = decide (s.phase = .run) := by
  rw [Bool.eq_iff_iff, State.busy_iff, decide_eq_true_iff]

/-- The bits of `STATUS`, from the lowest (10_state.md R13): the three flags, a zero, and `ERRCODE` above them. -/
theorem statusWord_getLsbD (s : State) (i : Nat) :
    s.statusWord.getLsbD i =
      if i = 0 then s.busy else if i = 1 then s.done else if i = 2 then s.err else if i = 3 then false
      else s.errCode.getLsbD (i - 4) := by
  rw [State.statusWord, BitVec.getLsbD_setWidth, BitVec.getLsbD_append, BitVec.getLsbD_append, BitVec.getLsbD_append,
    BitVec.getLsbD_append]
  match i with
  | 0 | 1 | 2 | 3 => simp
  | i + 4 =>
    have hwidth : s.errCode.getLsbD i = true → i + 4 < 32 := fun h => by
      have := BitVec.lt_of_getLsbD h
      omega
    simpa using hwidth

theorem statusWord_getLsbD_add_four (s : State) (i : Nat) : s.statusWord.getLsbD (i + 4) = s.errCode.getLsbD i :=
  statusWord_getLsbD s (i + 4)

theorem statusWord_errCode (s : State) : s.statusWord.extractLsb' 4 4 = s.errCode := by
  apply BitVec.eq_of_getLsbD_eq
  intro i hi
  rw [BitVec.getLsbD_extractLsb', Nat.add_comm, statusWord_getLsbD_add_four, decide_eq_true hi, Bool.true_and]

theorem statusWord_high (s : State) : s.statusWord.extractLsb' 8 24 = 0 := by
  apply BitVec.eq_of_getLsbD_eq
  intro i hi
  have hbit : s.statusWord.getLsbD (8 + i) = false := by
    rw [show 8 + i = 4 + i + 4 by omega, statusWord_getLsbD_add_four]
    exact BitVec.getLsbD_of_ge _ _ (by omega)
  rw [BitVec.getLsbD_extractLsb', hbit, Bool.and_false]
  exact BitVec.getLsbD_zero.symm

/-- Settles O33: a read hands out `readSlot`, which is the slot's own register but for the pair, hidden while busy, and
`STATUS`, which is built from its bits. -/
theorem readReturnsTheSlot : Obligations.ReadReturnsTheSlot := by
  unfold Obligations.ReadReturnsTheSlot
  intro s slot
  refine ⟨readSlot s slot, exec_rd s slot, ?key, ?data0, ?data1, ?bufAddr, ?bufLen, ?ctrl, ?status, ?reservedE, ?reservedF⟩
  case data0 =>
    rintro rfl
    exact ite_busy_eq s s.n1
  case data1 =>
    rintro rfl
    exact ite_busy_eq s s.n2
  case status =>
    rintro rfl
    exact ⟨(statusWord_getLsbD s 0).trans (busy_eq_decide s), statusWord_getLsbD s 1, statusWord_getLsbD s 2,
      statusWord_getLsbD s 3, statusWord_errCode s, statusWord_high s⟩
  case key =>
    rintro i rfl
    rfl
  all_goals
    rintro rfl
    rfl

end Sys2Proof.Machine
end

section
/-! PROOFS. The error record (60_exceptions.md R130 to R137): what recording an error leaves, which error a `CTRL` write records,
that nothing but a `STATUS` access depends on the record, and what clears it. -/

namespace Sys2Proof.Machine

/-! ### Recording an error (R136) -/

theorem State.raise_of_no_error {s : State} (h : s.err = false) (e : ErrorKind) :
    s.raise e = { s with err := true, errCode := e.code } := by
  rw [State.raise, h]
  rfl

theorem State.raise_of_error {s : State} (h : s.err = true) (e : ErrorKind) : s.raise e = s := by
  rw [State.raise, if_pos h, ← h]

/-! ### The order busy, legality, range (R135) -/

/-- The two words of the buffer commands (30_encoding.md R46, R47). -/
theorem buffer_word_of_decoded {c : Word} {cmd : Command} (hc : decodeCommand c = .ok cmd)
    (hop : cmd.op = .encode ∨ cmd.op = .decode) : c = 0x00000003 ∨ c = 0x00000004 := by
  obtain ⟨hwf, rfl⟩ := (decodeCommand_eq_ok_iff c cmd).1 hc
  obtain ⟨op, k⟩ := cmd
  obtain rfl : k = 0 := by rcases hop with rfl | rfl <;> simpa [Command.wellFormed] using hwf
  rcases hop with rfl | rfl
  · exact .inl rfl
  · exact .inr rfl

/-- Settles O42: each clause is one outcome of the write, `BUSY_WRITE` while busy, and while idle `ILLEGAL_CMD`, `RANGE` or
acceptance, which leaves the error record alone. -/
theorem errorPriority : Obligations.ErrorPriority := by
  unfold Obligations.ErrorPriority
  intro s c hclear
  have hcode (e : ErrorKind) : (s.raise e).errCode = e.code := by rw [State.raise_of_no_error hclear]
  obtain ⟨t, ht⟩ := exec_goes_on (.wr .ctrl c) s
  have heq {u : State} (hu : exec (.wr .ctrl c) s = .next u) : t = u := by
    rw [ht] at hu
    exact Host.Outcome.next.inj hu
  refine ⟨fun hbusy slot v hslot => ?_, t, ht, fun hbusy => ?_, fun hidle hillegal => ?_, fun hidle hbuffer hrange => ?_,
    fun hidle hlegal hother => ?_⟩
  · rw [exec_wr_of_busy hbusy, writeBusy_of_number_le hslot, State.raise_of_no_error hclear]
    rfl
  · rw [heq (exec_wr_ctrl_of_busy hbusy c)]
    exact hcode .busyWrite
  · rw [heq (exec_wr_ctrl_of_illegal hidle hillegal)]
    exact hcode .illegalCmd
  · have hexec : exec (.wr .ctrl c) s = .next (s.raise .range) := by
      rcases hbuffer with rfl | rfl
      · exact exec_wr_ctrl_bufferCommand_of_range (d := .encrypt) hidle hrange
      · exact exec_wr_ctrl_bufferCommand_of_range (d := .decrypt) hidle hrange
    rw [heq hexec]
    exact hcode .range
  · obtain ⟨cmd, hc⟩ := (decodeCommand_isOk_iff c).2 hlegal
    rw [heq (exec_wr_ctrl_of_decoded_inRange hidle hc fun hop => absurd (buffer_word_of_decoded hc hop) hother)]
    exact ⟨hclear, rfl⟩

/-! ### An error on record blocks nothing (R136) -/

/-- `s` with an error of the given code on record. -/
def State.withErrorRecord (s : State) (code : BitVec 4) : State := { s with err := true, errCode := code }

theorem State.withErrorRecord_self {s : State} (h : s.err = true) : s.withErrorRecord s.errCode = s := by
  rw [State.withErrorRecord, ← h]

section
variable (s : State) (code : BitVec 4)

theorem State.raise_withErrorRecord (e : ErrorKind) :
    (s.withErrorRecord code).raise e = (s.raise e).withErrorRecord code := rfl

/-- An offer is checked and accepted as with `ERR` clear, if what follows acceptance does not see the record. -/
theorem State.offer_withErrorRecord (c : Command) {run : State → State}
    (hrun : ∀ a, run (a.withErrorRecord code) = (run a).withErrorRecord code) :
    (s.withErrorRecord code).offer c run = (s.offer c run).withErrorRecord code := by
  have hcheck : commandError c (s.withErrorRecord code) = commandError c s := rfl
  rw [State.offer, State.offer, hcheck]
  cases commandError c s with
  | some e => exact State.raise_withErrorRecord s code e
  | none => exact hrun (s.accept c)

theorem runBuffer_withErrorRecord : runBuffer (s.withErrorRecord code) = (runBuffer s).withErrorRecord code := by
  unfold runBuffer
  rw [apply_ite (State.withErrorRecord · code), apply_ite (State.withErrorRecord · code)]
  rfl

theorem offerWord_withErrorRecord (w : Word) :
    offerWord w (s.withErrorRecord code) = (offerWord w s).withErrorRecord code := by
  unfold offerWord
  cases decodeCommand w with
  | error r => exact State.raise_withErrorRecord s code .illegalCmd
  | ok cmd => exact State.offer_withErrorRecord s code cmd fun _ => rfl

theorem writeIdle_withErrorRecord {slot : Slot} (hslot : slot ≠ .status) (v : Word) :
    writeIdle slot v (s.withErrorRecord code) = (writeIdle slot v s).withErrorRecord code := by
  cases slot with
  | status => exact absurd rfl hslot
  | ctrl => exact offerWord_withErrorRecord s code v
  | _ => rfl

theorem writeBusy_withErrorRecord {slot : Slot} (hslot : slot ≠ .status) (v : Word) :
    writeBusy slot v (s.withErrorRecord code) = (writeBusy slot v s).withErrorRecord code := by
  cases slot with
  | status => exact absurd rfl hslot
  | _ => rfl

theorem readSlot_withErrorRecord {slot : Slot} (hslot : slot ≠ .status) :
    readSlot (s.withErrorRecord code) slot = readSlot s slot := by
  cases slot with
  | status => exact absurd rfl hslot
  | _ => rfl

end

/-- An instruction that does not access `STATUS` neither sees the error on record nor changes it. -/
theorem exec_withErrorRecord {i : Instr} {s u : State} (code : BitVec 4) (hwr : ∀ m, i ≠ .wr .status m)
    (hrd : i ≠ .rd .status) (h : exec i s = .next u) :
    exec i (s.withErrorRecord code) = .next (u.withErrorRecord code) := by
  cases i with
  | wr slot v =>
    have hslot : slot ≠ .status := fun e => hwr v (by rw [e])
    cases hphase : s.phase with
    | run =>
      rw [exec_wr_of_busy hphase] at h
      cases h
      rw [exec_wr_of_busy (s := s.withErrorRecord code) hphase, writeBusy_withErrorRecord s code hslot]
    | idle =>
      rw [exec_wr_of_idle hphase] at h
      cases h
      rw [exec_wr_of_idle (s := s.withErrorRecord code) hphase, writeIdle_withErrorRecord s code hslot]
  | rd slot =>
    have hslot : slot ≠ .status := fun e => hrd (by rw [e])
    rw [exec_rd] at h
    cases h
    rw [exec_rd, readSlot_withErrorRecord s code hslot]
    rfl
  | encode | decode =>
    cases h
    exact congrArg _ (State.offer_withErrorRecord s code _ fun a => runBuffer_withErrorRecord a code)
  | _ =>
    cases h
    exact congrArg _ (State.offer_withErrorRecord s code _ fun _ => rfl)

/-- With `ERR` set, an instruction that does not access `STATUS` does what it does from any other record, and the first error
stays. -/
theorem exec_of_error {i : Instr} {s t : State} (herr : s.err = true) (hwr : ∀ m, i ≠ .wr .status m)
    (hrd : i ≠ .rd .status) (h : exec i s = .next t) :
    ∃ u, exec i s.clearError = .next u ∧ t = u.withErrorRecord s.errCode := by
  obtain ⟨u, hu⟩ := exec_goes_on i s.clearError
  have hrecord : s.clearError.withErrorRecord s.errCode = s := State.withErrorRecord_self herr
  have ht := exec_withErrorRecord s.errCode hwr hrd hu
  rw [hrecord, h] at ht
  exact ⟨u, hu, Host.Outcome.next.inj ht⟩

/-- With `ERR` set, no instruction but a `STATUS` write changes the error record. -/
theorem exec_keeps_error {i : Instr} {s t : State} (herr : s.err = true) (hwr : ∀ m, i ≠ .wr .status m)
    (h : exec i s = .next t) : t.err = true ∧ t.errCode = s.errCode := by
  by_cases hrd : i = .rd .status
  · subst hrd
    rw [exec_rd] at h
    cases h
    exact ⟨herr, rfl⟩
  · obtain ⟨u, -, rfl⟩ := exec_of_error herr hwr hrd h
    exact ⟨rfl, rfl⟩

/-- Settles O43: an instruction commutes with having an error on record. -/
theorem firstErrorIsKept : Obligations.FirstErrorIsKept := by
  unfold Obligations.FirstErrorIsKept
  refine ⟨fun s e => ⟨fun h => State.raise_of_no_error h e, fun h => State.raise_of_error h e⟩,
    fun s t i herr hwr h => ?_, fun s => rfl⟩
  obtain ⟨hkeptErr, hkeptCode⟩ := exec_keeps_error herr hwr h
  exact ⟨hkeptErr, hkeptCode, fun hrd => exec_of_error herr hwr hrd h⟩

/-! ### What clears the record (R137) -/

@[simp] theorem engineStep_err (s : State) : (engineStep s).err = s.err := by
  rw [engineStep_frame]

@[simp] theorem writeByOther_err (a : Word) (b : Byte) (s : State) : (writeByOther a b s).err = s.err := by
  rw [writeByOther_frame]

/-- The one instruction that clears `ERR` is a `STATUS` write with bit 2 set. -/
theorem exec_clears_error {i : Instr} {s t : State} (hs : s.err = true) (ht : t.err = false) (h : exec i s = .next t) :
    ∃ m, i = .wr .status m ∧ m.getLsbD 2 = true := by
  by_cases hwr : ∃ m, i = .wr .status m
  · obtain ⟨m, rfl⟩ := hwr
    rw [exec_wr_status] at h
    cases h
    rw [State.writeStatus_err, hs] at ht
    exact ⟨m, rfl, by simpa using ht⟩
  · have hkept := (exec_keeps_error hs (fun m e => hwr ⟨m, e⟩) h).1
    rw [ht] at hkept
    cases hkept

/-- The one presented form that clears `ERR` is a `STATUS` write with bit 2 set. -/
theorem presentForm_clears_error {f : Form} {s t : State} (hs : s.err = true) (ht : t.err = false)
    (h : presentForm f s = .next t) : ∃ m, decode f = .ok (.wr .status m) ∧ m.getLsbD 2 = true := by
  unfold presentForm at h
  split at h
  · next i hdecode =>
    obtain ⟨m, rfl, hm⟩ := exec_clears_error hs ht h
    exact ⟨m, hdecode, hm⟩
  · cases h
    cases ht

/-- The one input, reset aside, that clears `ERR` is a presented `STATUS` write with bit 2 set. -/
theorem takeInput_clears_error {i : Input} {s t : State} (hs : s.err = true) (ht : t.err = false)
    (h : takeInput i s = .next t) :
    i = .reset ∨ ∃ f m, i = .present f ∧ decode f = .ok (.wr .status m) ∧ m.getLsbD 2 = true := by
  cases i with
  | reset => exact .inl rfl
  | present f =>
    obtain ⟨m, hdecode, hm⟩ := presentForm_clears_error hs ht h
    exact .inr ⟨f, m, rfl, hdecode, hm⟩
  | engine | memWrite | memReady =>
    cases h
    simp [hs] at ht

/-- Settles O44: an engine step keeps `ERR`, so a step that clears it took an input, and only the two of R137 clear it; both
clear the whole record. -/
theorem onlyStatusWriteOrResetClearsErr : Obligations.OnlyStatusWriteOrResetClearsErr := by
  unfold Obligations.OnlyStatusWriteOrResetClearsErr
  refine ⟨fun s t h hs ht => ?_, fun s m hm => ?_, fun s rest hinputs => ?_⟩
  · rw [step, runNext] at h
    split at h
    · cases h
      simp [hs] at ht
    · next i rest hinputs =>
      refine ⟨rest, ?_⟩
      rcases takeInput_clears_error (s := { s with inputs := rest }) hs ht h with rfl | ⟨f, m, rfl, hclears⟩
      · exact .inl hinputs
      · exact .inr ⟨f, m, hinputs, hclears⟩
  · refine ⟨_, exec_wr_status s m, ?_⟩
    rw [State.writeStatus_err, State.writeStatus_errCode, if_pos hm, if_pos hm]
    exact ⟨rfl, rfl⟩
  · exact ⟨_, step_reset hinputs, rfl, rfl⟩

end Sys2Proof.Machine
end

section
/-! PROOFS. The round trip of the encoding (30_encoding.md R45 to R50): a command instruction is encoded by the word of its
command, a transaction is its three fields, and the 16 slot numbers and the 16 slots correspond. -/

namespace Sys2Proof

/-! ### Commands (format C) -/

/-- A command instruction is that of its command, which is well formed and whose word encodes it (R46, R47). -/
theorem Instr.command?_eq_some {i : Instr} {c : Command} (h : i.command? = some c) :
    c.wellFormed = true ∧ c.toInstr = i ∧ Sys2Proof.encode i = .command c.word := by
  cases i <;> cases h <;> exact ⟨rfl, rfl, rfl⟩

/-- The instructions that are no command are the two transactions. -/
theorem Instr.command?_eq_none {i : Instr} (h : i.command? = none) : (∃ slot v, i = .wr slot v) ∨ ∃ slot, i = .rd slot := by
  cases i with
  | wr slot v => exact .inl ⟨slot, v, rfl⟩
  | rd slot => exact .inr ⟨slot, rfl⟩
  | _ => cases h

theorem encode_toInstr {c : Command} (h : c.wellFormed = true) : encode c.toInstr = .command c.word := by
  obtain ⟨-, -, hencode⟩ := Instr.command?_eq_some (Command.command_toInstr h)
  exact hencode

/-! ### Transactions (format T) -/

/-- The slot numbers determine the slots one to one (10_state.md R19). -/
@[simp] theorem Slot.number_ofNumber (n : BitVec 4) : (Slot.ofNumber n).number = n := by
  revert n
  decide

section
variable (we : BitVec 1) (a : BitVec 4) (v : Word)

theorem transaction_we : BitVec.getLsbD (w := 37) (we ++ a ++ v) 36 = we.getLsbD 0 := by
  rw [transaction_getLsbD]
  rfl

theorem transaction_addr : BitVec.extractLsb' (n := 37) 32 4 (we ++ a ++ v) = a := by
  apply BitVec.eq_of_getLsbD_eq
  intro i hi
  rw [BitVec.getLsbD_extractLsb', transaction_getLsbD, if_neg (by omega), if_pos (by omega), decide_eq_true hi]
  simp

theorem transaction_wdata : BitVec.extractLsb' (n := 37) 0 32 (we ++ a ++ v) = v := by
  apply BitVec.eq_of_getLsbD_eq
  intro i hi
  rw [BitVec.getLsbD_extractLsb', transaction_getLsbD, if_pos (by omega), decide_eq_true hi]
  simp

/-- Decoding of a triple `we || addr || wdata`. -/
theorem decodeTransaction_append :
    decodeTransaction (we ++ a ++ v) = if we.getLsbD 0 then .wr (Slot.ofNumber a) v else .rd (Slot.ofNumber a) := by
  rw [decodeTransaction, transaction_we, transaction_addr, transaction_wdata]

/-- A mask keeps `we` and `addr` and drops the data. -/
theorem transaction_and_dataMask : ((we ++ a ++ v : BitVec 37) &&& 0x1F00000000) = we ++ a ++ (0 : Word) := by
  have hmask : (0x1F00000000 : BitVec 37) = BitVec.allOnes 1 ++ BitVec.allOnes 4 ++ (0 : Word) := by decide
  rw [hmask]
  refine (BitVec.and_append (x₁ := we ++ a) (y₁ := v)).trans ?_
  rw [BitVec.and_append, BitVec.and_allOnes, BitVec.and_allOnes]
  exact congrArg (we ++ a ++ ·) BitVec.and_zero

end

/-- Every transaction is its three fields. -/
theorem transaction_fields (t : BitVec 37) :
    t = t.extractLsb' 36 1 ++ t.extractLsb' 32 4 ++ t.extractLsb' 0 32 := by
  apply BitVec.eq_of_getLsbD_eq
  intro i hi
  rw [transaction_getLsbD]
  simp only [BitVec.getLsbD_extractLsb']
  split_ifs <;> (rw [decide_eq_true (by omega), Bool.true_and]; congr 1; omega)

theorem decode_write (a : BitVec 4) (v : Word) :
    decode (.transaction ((1 : BitVec 1) ++ a ++ v)) = .ok (.wr (Slot.ofNumber a) v) :=
  congrArg _ (decodeTransaction_append 1 a v)

theorem decode_read (a : BitVec 4) (v : Word) :
    decode (.transaction ((0 : BitVec 1) ++ a ++ v)) = .ok (.rd (Slot.ofNumber a)) :=
  congrArg _ (decodeTransaction_append 0 a v)

/-! ### Both directions -/

theorem decode_encode (i : Instr) : decode (encode i) = .ok i := by
  cases hc : i.command? with
  | some c =>
    obtain ⟨hwf, hi, hencode⟩ := Instr.command?_eq_some hc
    rw [hencode, Machine.decode_command_word hwf, hi]
  | none =>
    rcases Instr.command?_eq_none hc with ⟨slot, v, rfl⟩ | ⟨slot, rfl⟩
    · exact (decode_write slot.number v).trans (by rw [Slot.ofNumber_number])
    · exact (decode_read slot.number 0).trans (by rw [Slot.ofNumber_number])

theorem Instr.wellFormed_all (i : Instr) : i.wellFormed = true := by
  rw [Instr.wellFormed]
  cases hc : i.command? with
  | some c =>
    obtain ⟨hwf, -, -⟩ := Instr.command?_eq_some hc
    exact hwf
  | none => rfl

/-- Settles O1: a command decodes from its own word, and a transaction's fields come back from their places. -/
theorem decodeOfEncode : Obligations.DecodeOfEncode := by
  unfold Obligations.DecodeOfEncode
  exact fun i => ⟨i.wellFormed_all, decode_encode i⟩

/-- Settles O2: a word that decodes is that of a well-formed command; a transaction is its fields, of which a read's encoding
keeps all but the data. -/
theorem encodeOfDecode : Obligations.EncodeOfDecode := by
  unfold Obligations.EncodeOfDecode
  intro f i h
  cases f with
  | command c =>
    obtain ⟨cmd, hcmd, rfl⟩ := (decode_command_eq_ok_iff c i).1 h
    obtain ⟨hwf, rfl⟩ := (decodeCommand_eq_ok_iff c cmd).1 hcmd
    exact .inl (encode_toInstr hwf)
  | transaction t =>
    obtain ⟨we, a, v, rfl⟩ : ∃ (we : BitVec 1) (a : BitVec 4) (v : Word), t = we ++ a ++ v :=
      ⟨_, _, _, transaction_fields t⟩
    rcases BitVec.eq_zero_or_eq_one we with rfl | rfl
    · cases (decode_read a v).symm.trans h
      refine .inr ⟨_, _, rfl, rfl, ?_⟩
      rw [transaction_and_dataMask, encode, transactionBits, Slot.number_ofNumber]
      rfl
    · cases (decode_write a v).symm.trans h
      refine .inl ?_
      rw [encode, transactionBits, Slot.number_ofNumber]
      rfl

/-- Settles O5: the fields of a triple stand where the decoder reads them. -/
theorem everyTripleIsATransaction : Obligations.EveryTripleIsATransaction := by
  unfold Obligations.EveryTripleIsATransaction
  exact ⟨fun a v => ⟨decode_write a v, decode_read a v⟩, Slot.number_ofNumber, Slot.ofNumber_number⟩

/-- Settles O6: closed words, decoded by computation. -/
theorem writtenOutWordsDecode : Obligations.WrittenOutWordsDecode := by
  unfold Obligations.WrittenOutWordsDecode
  decide

end Sys2Proof
end

section
/-! PROOFS. The engine's step (42_block_core.md R92, 43_simple_replacement.md R103, 44_host_transactions.md R119, R121): what every
step keeps, the steps of the block core and of the buffer sequencer, and what the host sees of them or does to them. -/

namespace Sys2Proof.Machine

/-! ### What every engine step keeps -/

@[simp] theorem engineStep_k (s : State) : (engineStep s).k = s.k := by
  rw [engineStep_frame]

@[simp] theorem engineStep_bufAddr (s : State) : (engineStep s).bufAddr = s.bufAddr := by
  rw [engineStep_frame]

@[simp] theorem engineStep_bufLen (s : State) : (engineStep s).bufLen = s.bufLen := by
  rw [engineStep_frame]

@[simp] theorem engineStep_errCode (s : State) : (engineStep s).errCode = s.errCode := by
  rw [engineStep_frame]

theorem busy_of_bufferBusy {s : State} (h : s.bufferBusy = true) : s.phase = .run := by
  rw [State.bufferBusy, Bool.and_eq_true, State.busy_iff] at h
  exact h.1

/-- An engine step leaves `BUSY` and `DONE` as they are or completes (R119). -/
theorem EngineMove.phase_and_done {s t : State} (h : EngineMove s t) :
    t.phase = s.phase ∧ t.done = s.done ∨ s.phase = .run ∧ t.phase = .idle ∧ t.done = true := by
  cases h with
  | single _ _ h | finishBlock h => exact .inr ⟨h, rfl, rfl⟩
  | finishBuffer h => exact .inr ⟨busy_of_bufferBusy h, rfl, rfl⟩
  | _ => exact .inl ⟨rfl, rfl⟩

/-- Settles O35: `DONE` moves only with `BUSY`, when the step completes. -/
theorem engineStepCompletesWithDone : Obligations.EngineStepCompletesWithDone := by
  unfold Obligations.EngineStepCompletesWithDone
  intro s
  refine ⟨fun hrun hidle => ?_, fun hsame => ?_, engineStep_of_idle, engineStep_err s, engineStep_errCode s, engineStep_k s,
    engineStep_bufAddr s, engineStep_bufLen s⟩
  · rcases (engineStep_moves s).phase_and_done with ⟨hphase, -⟩ | ⟨-, -, hdone⟩
    · rw [hphase, hrun] at hidle
      cases hidle
    · exact hdone
  · rcases (engineStep_moves s).phase_and_done with ⟨-, hdone⟩ | ⟨hrun, hidle, -⟩
    · exact hdone
    · rw [hidle, hrun] at hsame
      cases hsame

/-! ### Rounds (R92, R103) -/

/-- The engine is in the rounds of a block: ENCB or DECB is in progress, or ENCODE or DECODE in its phase `ROUNDS`. -/
def State.inRounds (s : State) : Prop :=
  s.phase = .run ∧ (s.opc = some .encb ∨ s.opc = some .decb) ∨ s.bufferBusy = true ∧ s.bph = .rounds

theorem engineStep_of_round {s : State} (h : s.inRounds) (hrc : s.rc.toNat < 32) : engineStep s = roundStep s := by
  have hlt := (rc_lt_iff s).2 hrc
  rcases h with ⟨hrun, hop⟩ | ⟨hbuffer, hrounds⟩
  · rw [engineStep_of_blockCore hrun hop, blockCoreStep, if_pos hlt]
  · rw [engineStep_of_buffer hbuffer, bufferStep, hrounds]
    exact if_pos hlt

/-- `s` after the first `n` rounds of its block. -/
def State.afterRounds (n : Nat) (s : State) : State :=
  { s.setPair (roundsWith Config.sbox s.k s.dir n s.pair) with rc := BitVec.ofNat 6 n }

/-- From `RC` = 0 the engine's steps are the rounds of R90, and `RC` counts them. -/
theorem engineSteps_of_rounds {s : State} (h : s.inRounds) (hrc : s.rc = 0) {n : Nat} (hn : n ≤ 32) :
    engineSteps n s = s.afterRounds n := by
  induction n with
  | zero =>
    show s = { s.setPair s.pair with rc := 0 }
    rw [← hrc]
    rfl
  | succ n ih =>
    have hcount : (s.afterRounds n).rc.toNat = n := Nat.mod_eq_of_lt (by omega)
    rw [engineSteps_succ, ih (by omega), engineStep_of_round (s := s.afterRounds n) h (by omega), roundStep, hcount,
      State.afterRounds, State.afterRounds, BitVec.ofNat_add]
    rfl

/-- The step after the rounds exchanges the halves; ENCB or DECB is then complete. -/
theorem engineStep_of_last_blockCore {s : State} (hrun : s.phase = .run) (hop : s.opc = some .encb ∨ s.opc = some .decb)
    (hrc : s.rc = 32) : engineStep s = (s.setPair (swapPair s.pair)).complete := by
  rw [engineStep_of_blockCore hrun hop, blockCoreStep, if_neg (by rw [rc_lt_iff, hrc]; decide)]

/-- The 33 steps of ENCB or DECB leave what the command's meaning leaves (R92, R93). -/
theorem engineSteps_blockCore {s : State} (hrun : s.phase = .run) (hop : s.opc = some .encb ∨ s.opc = some .decb)
    (hrc : s.rc = 0) : engineSteps 33 s = (opCrypt s).complete := by
  rw [engineSteps_succ 32, engineSteps_of_rounds (.inl ⟨hrun, hop⟩) hrc le_rfl,
    engineStep_of_last_blockCore (s := s.afterRounds 32) hrun hop rfl]
  rfl

/-- Settles O36: the steps from acceptance are the rounds, numbered by `RC`, and the exchange that completes. -/
theorem blockCoreSequencer : Obligations.BlockCoreSequencer := by
  unfold Obligations.BlockCoreSequencer
  intro op hop
  refine ⟨fun s hrun hopc => ?_, fun s => ?_⟩
  · have hopc : s.opc = some .encb ∨ s.opc = some .decb := by simpa [hopc] using hop
    exact ⟨fun hrc => engineStep_of_round (.inl ⟨hrun, hopc⟩) hrc,
      fun hrc => engineStep_of_last_blockCore hrun hopc hrc⟩
  · have hopc : (s.accept ⟨op, 0⟩).opc = some .encb ∨ (s.accept ⟨op, 0⟩).opc = some .decb := by simpa using hop
    have hall := engineSteps_blockCore (s := s.accept ⟨op, 0⟩) rfl hopc rfl
    refine ⟨rfl, ?_, fun n hn => ?_, ?_⟩
    · rcases hop with rfl | rfl <;> rfl
    · rw [engineSteps_of_rounds (.inl ⟨rfl, hopc⟩) rfl hn]
      exact ⟨rfl, rfl⟩
    · rw [hall]
      exact ⟨rfl, rfl, rfl⟩

/-! ### The buffer sequencer (R103) -/

section
variable {s : State}

theorem bufferBusy_of_opc {op : Opcode} (hop : op = .encode ∨ op = .decode) (hrun : s.phase = .run)
    (hopc : s.opc = some op) : s.bufferBusy = true := by
  rw [State.bufferBusy, (State.busy_iff s).2 hrun, hopc]
  exact (usesBuffer_iff op).2 hop

theorem engineStep_of_load (hbuffer : s.bufferBusy = true) (hload : s.bph = .load) (hcnt : s.cnt ≠ 0)
    (hready : s.memReady = true) :
    engineStep s = { s.setPair (loadSeen s.readEarly s.mem s.ptr) with rc := 0, bph := .rounds } := by
  rw [engineStep_of_buffer hbuffer, bufferStep, hload]
  exact (if_neg hcnt).trans (if_pos hready)

theorem engineStep_of_swap (hbuffer : s.bufferBusy = true) (hrounds : s.bph = .rounds) (hrc : s.rc = 32) :
    engineStep s = { s.setPair (swapPair s.pair) with bph := .store } := by
  rw [engineStep_of_buffer hbuffer, bufferStep, hrounds]
  exact if_neg (by rw [rc_lt_iff, hrc]; decide)

theorem engineStep_of_store (hbuffer : s.bufferBusy = true) (hstore : s.bph = .store) (hready : s.memReady = true) :
    engineStep s = { s with
      mem := storeSome s.storedEarly s.mem s.ptr (blockBytes s.pair) (BitVec.allOnes 8)
      ptr := s.ptr + 8, cnt := s.cnt - 1, bph := .load } := by
  rw [engineStep_of_buffer hbuffer, bufferStep, hstore]
  exact if_pos hready

end

/-- Byte `i` of a block as the engine stores it: the block's, but for a byte that was stored before its turn (20_memory.md
R35). -/
theorem read_storeSome_all (skip m : Memory) (a : Word) (p : Pair) {i : Nat} (hi : i < 8) :
    (storeSome skip m a (blockBytes p) (BitVec.allOnes 8)).read (a + BitVec.ofNat 32 i) =
      if (lookup skip (a + BitVec.ofNat 32 i).toNat).isSome then m.read (a + BitVec.ofNat 32 i)
      else (blockBytes p).getD i 0 := by
  rw [read_storeSome_inside skip m a (blockBytes p) _ i hi (by simp), BitVec.getLsbD_allOnes, decide_eq_true hi,
    Bool.true_and, List.getD_eq_getElem _ _ hi]
  cases lookup skip (a + BitVec.ofNat 32 i).toNat <;> rfl

/-- Settles O37: each row of the table is the sequencer's step in that phase. -/
theorem bufferSequencer : Obligations.BufferSequencer := by
  unfold Obligations.BufferSequencer
  intro s op hop hrun hopc hready
  have hbuffer := bufferBusy_of_opc hop hrun hopc
  have hcnt (h : 0 < s.cnt.toNat) : s.cnt ≠ 0 := fun e => by simp [e] at h
  refine ⟨fun hload hzero => ?_, fun hload hpos => ?_, fun hload hpos hearly => ?_, fun hrounds hrc => ?_,
    fun hrounds hrc => ?_, fun hstore => ?_⟩
  · exact engineStep_of_no_block hbuffer hload (BitVec.eq_of_toNat_eq hzero)
  · refine ⟨fun i => (lookup s.readEarly (s.ptr + BitVec.ofNat 32 i).toNat).getD (s.mem.read (s.ptr + BitVec.ofNat 32 i)),
      fun i _ => rfl, ?_⟩
    rw [engineStep_of_load hbuffer hload (hcnt hpos) hready, loadSeen, memSeen_eq_map]
    rfl
  · have hblock : loadSeen s.readEarly s.mem s.ptr = loadBlock s.mem s.ptr := by rw [hearly, loadSeen_nil]
    rw [engineStep_of_load hbuffer hload (hcnt hpos) hready, hblock, loadBlock_eq_append]
    rfl
  · exact engineStep_of_round (.inr ⟨hbuffer, hrounds⟩) hrc
  · exact engineStep_of_swap hbuffer hrounds hrc
  · refine ⟨_, engineStep_of_store hbuffer hstore hready, fun i hi => read_storeSome_all _ _ _ _ hi,
      fun a ha => read_storeSome_outside _ _ _ _ _ _ ha, fun hearly => ?_⟩
    rw [hearly]
    exact storeSome_all _ _ _

/-! ### A memory that does not answer (70_reset_and_hazards.md R157) -/

/-- The engine requests the block at `PTR`, to load it while blocks are left or to store it, and nothing else. -/
theorem request_cases {s : State} {r : BlockAccess} (h : s.request = some r) :
    s.bufferBusy = true ∧ r.addr = s.ptr ∧ (s.bph = .load ∧ s.cnt ≠ 0 ∨ s.bph = .store) := by
  unfold State.request at h
  split at h
  · next hbuffer =>
    refine ⟨hbuffer, ?_⟩
    split at h
    · next hload =>
      split at h
      · cases h
      · next hcnt =>
        cases h
        exact ⟨rfl, .inl ⟨hload, hcnt⟩⟩
    · cases h
    · next hstore =>
      cases h
      exact ⟨rfl, .inr hstore⟩
  · cases h

theorem engineStep_of_unanswered {s : State} {r : BlockAccess} (hready : s.memReady = false) (hrequest : s.request = some r) :
    engineStep s = s := by
  obtain ⟨hbuffer, -, ⟨hload, hcnt⟩ | hstore⟩ := request_cases hrequest
  · rw [engineStep_of_buffer hbuffer, bufferStep, hload]
    exact (if_neg hcnt).trans (if_neg (by rw [hready]; decide))
  · rw [engineStep_of_buffer hbuffer, bufferStep, hstore]
    exact if_neg (by rw [hready]; decide)

/-- Where an engine step changes nothing no number of them does. -/
theorem engineSteps_of_fixed {s : State} (h : engineStep s = s) (n : Nat) : engineSteps n s = s := by
  induction n with
  | zero => rfl
  | succ n ih => rw [engineSteps_succ, ih, h]

theorem runBuffer_of_unanswered {s : State} (hcnt : s.cnt ≠ 0) (hready : s.memReady = false) : runBuffer s = s := by
  rw [runBuffer, if_neg hcnt, if_neg (by rw [hready]; decide)]

theorem accept_cnt_ne_zero {s : State} (c : Command) (hlen : 8 ≤ s.bufLen.toNat) : (s.accept c).cnt ≠ 0 := fun e => by
  have hcount := accept_cnt_toNat (s := s) c
  rw [e, show (0 : BitVec 29).toNat = 0 from rfl] at hcount
  omega

theorem exec_bufferCommand_of_unanswered {d : Direction} {s : State} (hidle : s.phase = .idle) (hready : s.memReady = false)
    (hlen : 8 ≤ s.bufLen.toNat) (hrange : s.bufAddr.toNat + s.bufLen.toNat ≤ 2 ^ 32) :
    exec (bufferCommand d).toInstr s = exec (.wr .ctrl (bufferCommand d).word) s := by
  rw [exec_bufferCommand_of_accepted hidle hrange, exec_wr_ctrl_bufferCommand_of_accepted hidle hrange,
    runBuffer_of_unanswered (accept_cnt_ne_zero _ hlen) hready]

/-- Settles O50: a request that is not answered is made again by the next step; a buffer command with a full block waits at its
first load, where acceptance left it. -/
theorem unansweredEngineWaits : Obligations.UnansweredEngineWaits := by
  unfold Obligations.UnansweredEngineWaits
  refine ⟨fun s r n hready hrequest => engineSteps_of_fixed (engineStep_of_unanswered hready hrequest) n,
    fun s hidle hready hlen hrange => ⟨?_, ?_⟩⟩
  · exact exec_bufferCommand_of_unanswered (d := .encrypt) hidle hready hlen hrange
  · exact exec_bufferCommand_of_unanswered (d := .decrypt) hidle hready hlen hrange

/-! ### The host beside a busy engine (R117, R121) -/

/-- `s` without what a transaction can touch while the engine is busy. -/
def State.hostBlind (s : State) : State := { s with done := false, err := false, errCode := 0, rdata := 0 }

section
variable (s : State)

theorem hostBlind_blockCoreStep : (blockCoreStep s).hostBlind = (blockCoreStep s.hostBlind).hostBlind := by
  rw [blockCoreStep, blockCoreStep, apply_ite State.hostBlind, apply_ite State.hostBlind]
  rfl

theorem hostBlind_bufferStep : (bufferStep s).hostBlind = (bufferStep s.hostBlind).hostBlind := by
  have hphase : s.hostBlind.bph = s.bph := rfl
  unfold bufferStep
  rw [hphase]
  cases s.bph with
  | load | rounds | store =>
    simp only [apply_ite State.hostBlind]
    rfl

theorem hostBlind_operationStep (op : Opcode) :
    (operationStep op s).hostBlind = (operationStep op s.hostBlind).hostBlind := by
  cases op with
  | encb | decb => exact hostBlind_blockCoreStep s
  | encode | decode => exact hostBlind_bufferStep s
  | _ => rfl

/-- The engine does not see `DONE`, the error record or the value read. -/
theorem hostBlind_engineStep : (engineStep s).hostBlind = (engineStep s.hostBlind).hostBlind := by
  have hbusy : s.hostBlind.busy = s.busy := rfl
  have hopc : s.hostBlind.opc = s.opc := rfl
  unfold engineStep
  rw [hbusy, hopc, apply_ite State.hostBlind, apply_ite State.hostBlind]
  cases s.opc with
  | none => rfl
  | some op =>
    rw [hostBlind_operationStep]
    rfl

end

theorem hostBlind_engineSteps {s t : State} (h : s.hostBlind = t.hostBlind) (n : Nat) :
    (engineSteps n s).hostBlind = (engineSteps n t).hostBlind := by
  induction n with
  | zero => exact h
  | succ n ih => rw [engineSteps_succ, engineSteps_succ, hostBlind_engineStep, ih, ← hostBlind_engineStep]

/-- Settles O40: a transaction while busy touches only what the engine does not see. -/
theorem hostCannotDisturbTheOperation : Obligations.HostCannotDisturbTheOperation := by
  unfold Obligations.HostCannotDisturbTheOperation
  intro s t i n hrun hexec
  obtain ⟨u, hu, hframe⟩ := exec_of_busy hrun i
  cases hexec.symm.trans hu
  have hblind : t.hostBlind = s.hostBlind := by
    rw [hframe]
    rfl
  exact ⟨hframe, hostBlind_engineSteps hblind n⟩

/-- Settles O41: while busy the two halves of the pair read 0, and every other slot shows what the hypotheses name. -/
theorem readsWhileBusyHideTheWork : Obligations.ReadsWhileBusyHideTheWork := by
  unfold Obligations.ReadsWhileBusyHideTheWork
  intro s₁ s₂ t₁ t₂ slot hrun₁ hrun₂ hk haddr hlen hdone herr hcode hexec₁ hexec₂
  have hbusy₁ := (State.busy_iff s₁).2 hrun₁
  have hbusy₂ := (State.busy_iff s₂).2 hrun₂
  rw [exec_rd] at hexec₁ hexec₂
  cases hexec₁
  cases hexec₂
  show readSlot s₁ slot = readSlot s₂ slot
  cases slot with
  | key i => rw [readSlot, readSlot, State.key, State.key, hk]
  | data0 | data1 => rw [readSlot, readSlot, hbusy₁, hbusy₂, if_pos rfl, if_pos rfl]
  | bufAddr => exact haddr
  | bufLen => exact hlen
  | status => rw [readSlot, readSlot, State.statusWord, State.statusWord, hdone, herr, hcode, hbusy₁, hbusy₂]
  | ctrl | reservedE | reservedF => rfl

end Sys2Proof.Machine
end

section
/-! PROOFS. A command carried out (00_scope.md section 5, 42_block_core.md R97, 43_simple_replacement.md R103): what the meaning
of a command leaves once it is accepted, that the engine's steps from acceptance leave the same, and what follows from it for
completion, for ROUND along the schedule, for RUN, and for what a command leaves unchanged. -/

namespace Sys2Proof.Machine

/-! ### The meaning of a command -/

/-- What the meaning of a command makes of the state that acceptance leaves (R70 to R72, R82, R93, R94, R101, R102). -/
def carryOut (op : Opcode) (a : State) : State :=
  match op with
  | .encb => (opCrypt a).complete
  | .decb => (opCrypt a).complete
  | .encode => runBuffer a
  | .decode => runBuffer a
  | .round => (opRound a.ksel a).complete
  | .subst => (opSubst a).complete
  | .add32 => (opAdd32 a).complete
  | .addm1 => (opAddm1 a).complete

theorem exec_command {i : Instr} {c : Command} (h : i.command? = some c) (s : State) :
    exec i s = .next (s.offer c (carryOut c.op)) := by
  cases i <;> cases h <;> rfl

/-- The range check of an offer, written with the buffer registers (R105). -/
theorem inRange_of_imp {s : State} {c : Command}
    (h : c.op = .encode ∨ c.op = .decode → s.bufAddr.toNat + s.bufLen.toNat ≤ 2 ^ 32) :
    usesBuffer c.op = false ∨ s.rangeExceeded = false := by
  cases hb : usesBuffer c.op with
  | false => exact .inl rfl
  | true => exact .inr ((rangeExceeded_eq_false s).2 (h ((usesBuffer_iff c.op).1 hb)))

theorem exec_toInstr_of_accepted {s : State} {c : Command} (hwf : c.wellFormed = true) (hidle : s.phase = .idle)
    (hrange : usesBuffer c.op = false ∨ s.rangeExceeded = false) :
    exec c.toInstr s = .next (carryOut c.op (s.accept c)) := by
  rw [exec_command (Command.command_toInstr hwf), offer_of_accepted hidle hrange]

/-- Everything a command can do: it is turned away with an error, or the engine was idle and it is carried out. -/
theorem exec_command_cases {i : Instr} {c : Command} {s t : State} (h : i.command? = some c) (hexec : exec i s = .next t) :
    (∃ e, t = s.raise e) ∨
      (s.phase = .idle ∧ (usesBuffer c.op = true → s.rangeExceeded = false) ∧ t = carryOut c.op (s.accept c)) := by
  rw [exec_command h] at hexec
  cases hexec
  exact offer_cases s c (carryOut c.op)

/-- A command moves the pair, the memory, the sequencer, `BUSY` and `DONE` only. -/
theorem carryOut_frame (op : Opcode) (a : State) :
    carryOut op a = { a with
      n1 := (carryOut op a).n1, n2 := (carryOut op a).n2, phase := (carryOut op a).phase, done := (carryOut op a).done,
      rc := (carryOut op a).rc, ptr := (carryOut op a).ptr, cnt := (carryOut op a).cnt, mem := (carryOut op a).mem } := by
  cases op with
  | encode | decode =>
    rw [carryOut]
    rcases runBuffer_cases a with ⟨-, h⟩ | ⟨-, -, h⟩ | ⟨-, -, h⟩
    · rw [h]
      rfl
    · rw [h]
    · rw [h]
  | _ => rfl

/-- Where the memory answers a command completes. -/
theorem carryOut_completes (op : Opcode) {a : State} (hready : a.memReady = true) :
    (carryOut op a).phase = .idle ∧ (carryOut op a).done = true := by
  cases op with
  | encode | decode =>
    rw [carryOut]
    rcases runBuffer_cases a with ⟨-, h⟩ | ⟨-, hwaits, -⟩ | ⟨-, -, h⟩
    · rw [h]
      exact ⟨rfl, rfl⟩
    · exact absurd (hready.symm.trans hwaits) (by decide)
    · rw [h]
      exact ⟨rfl, rfl⟩
  | _ => exact ⟨rfl, rfl⟩

theorem carryOut_mem_of_registers {op : Opcode} (h : usesBuffer op = false) (a : State) : (carryOut op a).mem = a.mem := by
  cases op with
  | encode | decode => cases h
  | _ => rfl

/-- ENCODE and DECODE leave every byte outside the window alone (R104). -/
theorem runBuffer_accept_read_outside {s : State} {c : Command} (hrange : s.bufAddr.toNat + s.bufLen.toNat ≤ 2 ^ 32) {x : Word}
    (hx : s.inWindow x = false) : (runBuffer (s.accept c)).mem.read x = s.mem.read x := by
  rcases runBuffer_cases (s.accept c) with ⟨-, h⟩ | ⟨-, -, h⟩ | ⟨-, -, h⟩ <;> rw [h]
  · rfl
  · rfl
  · refine bufferWith_read_outside _ _ _ _ _ _ _ _ fun j hj i hi => ?_
    rw [accept_cnt_toNat] at hj
    exact ne_of_not_inWindow hrange hx hj hi

theorem carryOut_accept_read_outside {s : State} {c : Command} (hrange : usesBuffer c.op = true → s.rangeExceeded = false)
    {x : Word} (hx : usesBuffer c.op = false ∨ s.inWindow x = false) :
    (carryOut c.op (s.accept c)).mem.read x = s.mem.read x := by
  cases hb : usesBuffer c.op with
  | false => rw [carryOut_mem_of_registers hb, State.accept_mem]
  | true =>
    have hr := (rangeExceeded_eq_false s).1 (hrange hb)
    have hout : s.inWindow x = false := hx.resolve_left (by rw [hb]; decide)
    rcases (usesBuffer_iff c.op).1 hb with hop | hop <;>
    · rw [hop, carryOut]
      exact runBuffer_accept_read_outside hr hout

/-! ### The engine's steps from acceptance (R92, R103) -/

/-- ENCODE or DECODE is at the load of a block, and nothing was accessed before its turn. -/
structure State.AtLoad (s : State) : Prop where
  busy : s.bufferBusy = true
  load : s.bph = .load
  readEarly : s.readEarly = []
  storedEarly : s.storedEarly = []

/-- `s` with a block loaded, at its first round. -/
def State.atRounds (s : State) (p : Pair) : State := { s.setPair p with rc := 0, bph := .rounds }

/-- `s` with a block transformed, to be stored. -/
def State.atStore (s : State) (p : Pair) : State := { s.setPair p with rc := 32, bph := .store }

/-- `s` after the next `n` blocks of its buffer. -/
def State.afterBlocks (n : Nat) (s : State) : State :=
  let r := bufferWith Config.sbox s.k s.dir s.ptr n s.mem s.pair
  { s.setPair r.2 with
    mem := r.1, ptr := blockAddr s.ptr n, cnt := s.cnt - BitVec.ofNat 29 n, rc := if n = 0 then s.rc else 32 }

section
variable {s : State}

/-- The rounds of a block and the exchange that ends them leave `crypt` of the pair, to be stored (R90, R103). -/
theorem engineSteps_rounds_swap (hbuffer : s.bufferBusy = true) (hrounds : s.bph = .rounds) (hrc : s.rc = 0) :
    engineSteps 33 s = s.atStore (crypt s.k s.dir s.pair) := by
  rw [engineSteps_succ 32, engineSteps_of_rounds (.inr ⟨hbuffer, hrounds⟩) hrc le_rfl,
    engineStep_of_swap (s := s.afterRounds 32) hbuffer hrounds rfl]
  rfl

/-- The 35 steps of one block: the load, 32 rounds, the exchange and the store (R103). -/
theorem engineSteps_block (h : s.AtLoad) (hcnt : s.cnt ≠ 0) (hready : s.memReady = true) :
    engineSteps 35 s =
      { s.setPair (crypt s.k s.dir (loadBlock s.mem s.ptr)) with
        mem := storeBlock s.mem s.ptr (crypt s.k s.dir (loadBlock s.mem s.ptr))
        ptr := s.ptr + 8, cnt := s.cnt - 1, rc := 32 } := by
  obtain ⟨hbuffer, hload, hread, hstored⟩ := h
  have hblock : loadSeen s.readEarly s.mem s.ptr = loadBlock s.mem s.ptr := by rw [hread, loadSeen_nil]
  have hstore (p : Pair) :
      storeSome s.storedEarly s.mem s.ptr (blockBytes p) (BitVec.allOnes 8) = storeBlock s.mem s.ptr p := by
    rw [hstored, storeSome_all]
  calc engineSteps 35 s
    _ = engineStep (engineSteps 33 (engineStep s)) := by rw [← engineSteps_succ]; rfl
    _ = engineStep (engineSteps 33 (s.atRounds (loadBlock s.mem s.ptr))) := by
      rw [engineStep_of_load hbuffer hload hcnt hready, hblock]
      rfl
    _ = engineStep (s.atStore (crypt s.k s.dir (loadBlock s.mem s.ptr))) := by
      rw [engineSteps_rounds_swap (s := s.atRounds _) hbuffer rfl rfl]
      rfl
    _ = _ := by
      rw [engineStep_of_store (s := s.atStore _) hbuffer rfl hready, ← hload, ← hstore]
      rfl

/-- The steps of `n` blocks transform them one after the other (R101, R109). -/
theorem engineSteps_blocks (h : s.AtLoad) (hready : s.memReady = true) {n : Nat} (hn : n ≤ s.cnt.toNat) :
    engineSteps (35 * n) s = s.afterBlocks n := by
  induction n with
  | zero =>
    simp [engineSteps, State.afterBlocks, bufferWith, blockAddr, State.setPair, State.pair]
  | succ n ih =>
    have hlt := s.cnt.isLt
    have hcnt : (s.afterBlocks n).cnt ≠ 0 := fun e => by
      have hleft : (s.cnt - BitVec.ofNat 29 n).toNat = 0 := congrArg BitVec.toNat e
      rw [BitVec.toNat_sub, BitVec.toNat_ofNat] at hleft
      omega
    have hnext : s.cnt - BitVec.ofNat 29 n - 1 = s.cnt - BitVec.ofNat 29 (n + 1) := by
      rw [BitVec.ofNat_add]
      exact sub_sub _ _ _
    have hat : (s.afterBlocks n).AtLoad := ⟨h.busy, h.load, h.readEarly, h.storedEarly⟩
    rw [Nat.mul_succ, engineSteps_add, ih (by omega), engineSteps_block hat hcnt hready]
    rw [State.afterBlocks, State.afterBlocks, ← hnext, ← blockAddr_succ]
    rfl

/-- The steps of ENCODE or DECODE leave what the command's meaning leaves, with no block and with a memory that does not answer
too. -/
theorem engineSteps_runBuffer (h : s.AtLoad) : engineSteps (1 + 35 * s.cnt.toNat) s = runBuffer s := by
  by_cases hcnt : s.cnt = 0
  · rw [runBuffer_of_no_block hcnt, hcnt]
    exact engineStep_of_no_block h.busy h.load hcnt
  cases hready : s.memReady with
  | false =>
    have hrequest : s.request = some ⟨false, s.ptr⟩ := by
      rw [State.request, if_pos h.busy, h.load]
      exact if_neg hcnt
    rw [runBuffer_of_unanswered hcnt hready]
    exact engineSteps_of_fixed (engineStep_of_unanswered hready hrequest) _
  | true =>
    have hnone : (s.afterBlocks s.cnt.toNat).cnt = 0 := by simp [State.afterBlocks]
    have hpos : s.cnt.toNat ≠ 0 := fun e => hcnt (BitVec.eq_of_toNat_eq e)
    rw [Nat.add_comm, engineSteps_succ, engineSteps_blocks h hready le_rfl,
      engineStep_of_no_block (s := s.afterBlocks s.cnt.toNat) h.busy h.load hnone, runBuffer, if_neg hcnt, if_pos hready]
    rw [State.afterBlocks, if_neg hpos, BitVec.ofNat_toNat, BitVec.setWidth_eq, BitVec.sub_self]
    rfl

end

theorem accept_atLoad {c : Command} (s : State) (h : usesBuffer c.op = true) : (s.accept c).AtLoad :=
  ⟨h, rfl, rfl, rfl⟩

/-- For every command the engine's steps from acceptance leave what the command's meaning leaves (R97). -/
theorem engineSteps_accept (s : State) (c : Command) :
    engineSteps (stepCount c.op (s.bufLen.toNat / 8)) (s.accept c) = carryOut c.op (s.accept c) := by
  obtain ⟨op, k⟩ := c
  cases op with
  | encb => exact engineSteps_blockCore rfl (.inl rfl) rfl
  | decb => exact engineSteps_blockCore rfl (.inr rfl) rfl
  | encode | decode =>
    rw [stepCount, ← accept_cnt_toNat]
    exact engineSteps_runBuffer (accept_atLoad s rfl)
  | round | subst | add32 | addm1 => rfl

/-- Settles O38: acceptance by the `CTRL` write is that of the command, and the steps from there are its meaning. -/
theorem smallStepsReachTheBigStep : Obligations.SmallStepsReachTheBigStep := by
  unfold Obligations.SmallStepsReachTheBigStep
  intro s cmd hwf hidle hrange
  refine ⟨s.accept cmd, exec_wr_ctrl_of_accepted hidle hwf (inRange_of_imp hrange), ?_⟩
  rw [engineSteps_accept, exec_toInstr_of_accepted hwf hidle (inRange_of_imp hrange)]

/-! ### Busy until the last step (R97, R122) -/

/-- An engine that is busy after some steps was busy before them. -/
theorem phase_run_of_later {s : State} {n m : Nat} (hn : n ≤ m) (h : (engineSteps m s).phase = .run) :
    (engineSteps n s).phase = .run := by
  cases hphase : (engineSteps n s).phase with
  | run => rfl
  | idle =>
    rw [← Nat.add_sub_cancel' hn, engineSteps_add, engineSteps_of_fixed (engineStep_of_idle hphase), hphase] at h
    cases h

/-- One step before the last the engine is still busy. -/
theorem busy_before_last_step (s : State) (c : Command) (hready : s.memReady = true) :
    (engineSteps (stepCount c.op (s.bufLen.toNat / 8) - 1) (s.accept c)).phase = .run := by
  obtain ⟨op, k⟩ := c
  cases op with
  | encb | decb =>
    rw [stepCount, engineSteps_of_rounds (.inl ⟨rfl, by simp⟩) rfl (by decide)]
    rfl
  | encode | decode =>
    rw [stepCount, Nat.add_sub_cancel_left,
      engineSteps_blocks (accept_atLoad s rfl) hready (Nat.le_of_eq (accept_cnt_toNat _).symm)]
    rfl
  | round | subst | add32 | addm1 => rfl

/-- Settles O39: the engine is busy one step before the end and hence at every step before it; the end is the command's
meaning, which completes. -/
theorem acceptedOperationCompletes : Obligations.AcceptedOperationCompletes := by
  unfold Obligations.AcceptedOperationCompletes
  intro s cmd hready
  refine ⟨fun n hn => phase_run_of_later (by omega) (busy_before_last_step s cmd hready), ?_⟩
  rw [engineSteps_accept]
  exact carryOut_completes cmd.op hready

/-! ### RUN (30_encoding.md R53) -/

/-- A step on a transaction of a script line. -/
theorem step_transact (s : State) (i : Instr) (rest : List Input) :
    step { s with inputs := transact i :: rest } = exec i { s with inputs := rest } :=
  step_present rfl (decode_encode i)

/-- RUN with the engine's steps written out, from acceptance to the read of `STATUS`. -/
theorem runSteps_scriptRun {s a : State} {cmd : Command} {n : Nat} {rest : List Input}
    (haccept : ∀ inputs, exec (.wr .ctrl cmd.word) { s with inputs := inputs } = .next { a with inputs := inputs }) :
    runSteps (n + 2) { s with inputs := scriptRun cmd n ++ rest } =
      .next { engineSteps n a with inputs := rest, rdata := (engineSteps n a).statusWord } := by
  have hscript : scriptRun cmd n ++ rest =
      transact (.wr .ctrl cmd.word) :: (List.replicate n .engine ++ transact (.rd .status) :: rest) := by
    simp [scriptRun, scriptCmd, scriptWait]
  rw [hscript, runSteps_succ (n + 1) ((step_transact s _ _).trans (haccept _)), runSteps_engine n 1 rfl,
    engineSteps_inputs, runSteps_succ 0 ((step_transact _ _ _).trans (exec_rd _ _))]
  rfl

/-- Settles O60: the transactions accept the command and let the engine carry it out; what they read is the `STATUS` of the state
that the command's meaning leaves. -/
theorem runByTransactionsIsRunWhole : Obligations.RunByTransactionsIsRunWhole := by
  unfold Obligations.RunByTransactionsIsRunWhole
  intro s cmd rest hwf hidle hready hrange
  have hcheck := inRange_of_imp hrange
  have hwhole : step { s with inputs := scriptRunWhole cmd ++ rest } =
      .next (carryOut cmd.op (State.accept { s with inputs := rest } cmd)) :=
    (step_present rfl (decode_command_word hwf)).trans
      (exec_toInstr_of_accepted (s := { s with inputs := rest }) hwf hidle hcheck)
  have hsteps := engineSteps_accept { s with inputs := rest } cmd
  refine ⟨_, runSteps_succ 0 hwhole, ?_, ?_⟩
  · rw [runSteps_scriptRun (a := State.accept { s with inputs := rest } cmd) fun inputs =>
      exec_wr_ctrl_of_accepted (s := { s with inputs := inputs }) hidle hwf hcheck, hsteps, carryOut_frame]
    rfl
  · obtain ⟨hphase, -⟩ := carryOut_completes cmd.op (a := State.accept { s with inputs := rest } cmd) hready
    rw [statusWord_getLsbD, if_pos rfl]
    exact (State.not_busy_iff _).2 hphase

/-! ### ROUND (R82) and the schedule -/

theorem exec_round (k : KeyIndex) (s : State) :
    exec (.round k) s = .next (s.offer ⟨.round, k⟩ fun a => (opRound k a).complete) := rfl

/-- `KIDX` stands above the opcode in ROUND's word (R45, R47). -/
theorem round_word (k : KeyIndex) : Command.word ⟨.round, k⟩ = 0x00000005 + 16 * BitVec.ofNat 32 k.val := by
  revert k
  decide

/-- Settles O15: ROUND k replaces the pair by one round of it, and completes. -/
theorem roundCompletes : Obligations.RoundCompletes := by
  unfold Obligations.RoundCompletes
  refine ⟨fun k s => ?_, by decide⟩
  rw [← round_word]
  exact ⟨fun hidle => exec_completes_with_pair (exec_round k s) hidle (.inl rfl) (roundWith Config.sbox s.k k s.pair) rfl,
    protocolHolds_of_offer (exec_round k s) rfl (.inl rfl) rfl rfl rfl rfl, decode_command_word (cmd := ⟨.round, k⟩) rfl⟩

theorem execAll_append {l l' : List Instr} {s t : State} (h : execAll l s = .next t) :
    execAll (l ++ l') s = execAll l' t := by
  induction l generalizing s with
  | nil =>
    cases h
    rfl
  | cons i l ih =>
    obtain ⟨u, hu⟩ := exec_goes_on i s
    rw [execAll, hu] at h
    rw [List.cons_append, execAll, hu]
    exact ih h

/-- ROUND commands along the schedule leave the rounds of the block (R82, R90). -/
theorem execAll_rounds (d : Direction) (n : Nat) {s : State} (hidle : s.phase = .idle) :
    ∃ t, execAll ((List.range n).map fun i => .round (sched d i)) s = .next t ∧ t.phase = .idle ∧ t.k = s.k ∧
      t.pair = roundsWith Config.sbox s.k d n s.pair := by
  induction n with
  | zero => exact ⟨s, rfl, hidle, rfl, rfl⟩
  | succ n ih =>
    obtain ⟨t, hexec, hphase, hkey, hpair⟩ := ih
    refine ⟨(opRound (sched d n) (t.accept ⟨.round, sched d n⟩)).complete, ?_, rfl, hkey, ?_⟩
    · rw [List.range_succ, List.map_append, execAll_append hexec, List.map_singleton, execAll, exec_round,
        offer_of_accepted hphase (.inl rfl)]
      rfl
    · rw [roundsWith, ← hpair, ← hkey]
      rfl

/-- Settles O22: the 32 commands leave the 32 rounds of the block, of which `crypt` is the exchange. -/
theorem thirtyTwoRoundsAgainstOneBlock : Obligations.ThirtyTwoRoundsAgainstOneBlock := by
  unfold Obligations.ThirtyTwoRoundsAgainstOneBlock
  intro s hidle
  obtain ⟨t, hencrypt, -, -, hpair⟩ := execAll_rounds .encrypt 32 hidle
  obtain ⟨t', hdecrypt, -, -, hpair'⟩ := execAll_rounds .decrypt 32 hidle
  exact ⟨⟨t, _, hencrypt, exec_toInstr_of_accepted (c := ⟨.encb, 0⟩) rfl hidle (.inl rfl), hpair⟩,
    ⟨t', _, hdecrypt, exec_toInstr_of_accepted (c := ⟨.decb, 0⟩) rfl hidle (.inl rfl), hpair'⟩⟩

/-! ### What a command depends on and what it leaves (10_state.md R24) -/

/-- A command that works on registers takes its result from the key, the pair, the subkey index and the direction. -/
theorem carryOut_pair_congr {op : Opcode} (hop : usesBuffer op = false) {a b : State} (hk : a.k = b.k) (hpair : a.pair = b.pair)
    (hksel : a.ksel = b.ksel) (hdir : a.dir = b.dir) : (carryOut op a).pair = (carryOut op b).pair := by
  have hn1 : a.n1 = b.n1 := congrArg Prod.fst hpair
  have hn2 : a.n2 = b.n2 := congrArg Prod.snd hpair
  cases op with
  | encode | decode => cases hop
  | encb | decb =>
    show crypt a.k a.dir a.pair = crypt b.k b.dir b.pair
    rw [hk, hdir, hpair]
  | round =>
    show roundWith _ a.k a.ksel a.pair = roundWith _ b.k b.ksel b.pair
    rw [hk, hksel, hpair]
  | subst =>
    show (substitute a.n1, a.n2) = (substitute b.n1, b.n2)
    rw [hn1, hn2]
  | add32 =>
    show (addMod32 a.n1 a.n2, a.n2) = (addMod32 b.n1 b.n2, b.n2)
    rw [hn1, hn2]
  | addm1 =>
    show (addMod32Minus1 a.n1 a.n2, a.n2) = (addMod32Minus1 b.n1 b.n2, b.n2)
    rw [hn1, hn2]

/-- A command instruction other than ENCODE and DECODE works on registers only. -/
theorem usesBuffer_of_command {i : Instr} {c : Command} (h : i.command? = some c) :
    usesBuffer c.op = true ↔ i = .encode ∨ i = .decode := by
  cases i <;> cases h <;> simp [usesBuffer]

/-- Settles O58: acceptance latches the subkey index and the direction from the command alone. -/
theorem operationDependsOnItsOperands : Obligations.OperationDependsOnItsOperands := by
  unfold Obligations.OperationDependsOnItsOperands
  intro i s₁ s₂ t₁ t₂ hcommand hencode hdecode hidle₁ hidle₂ hk hpair hexec₁ hexec₂
  obtain ⟨c, hc⟩ := Option.isSome_iff_exists.1 hcommand
  have hregisters : usesBuffer c.op = false := by
    rw [Bool.eq_false_iff, Ne, usesBuffer_of_command hc, not_or]
    exact ⟨hencode, hdecode⟩
  rw [exec_command hc, offer_of_accepted hidle₁ (.inl hregisters)] at hexec₁
  rw [exec_command hc, offer_of_accepted hidle₂ (.inl hregisters)] at hexec₂
  cases hexec₁
  cases hexec₂
  exact carryOut_pair_congr hregisters hk hpair rfl rfl

/-- Settles O45: a command is turned away, which changes the error record only, or carried out, which moves no more than
`carryOut_frame` says. -/
theorem commandFrame : Obligations.CommandFrame := by
  unfold Obligations.CommandFrame
  intro i s t hcommand hexec
  obtain ⟨c, hc⟩ := Option.isSome_iff_exists.1 hcommand
  rcases exec_command_cases hc hexec with ⟨e, rfl⟩ | ⟨-, hrange, ht⟩
  · exact ⟨rfl, rfl, rfl, rfl, rfl, rfl, rfl, fun _ => rfl, fun _ _ _ => rfl, fun _ _ _ => rfl, .inr rfl⟩
  · have hmem {x : Word} (hx : usesBuffer c.op = false ∨ s.inWindow x = false) : t.mem.read x = s.mem.read x := by
      rw [ht]
      exact carryOut_accept_read_outside hrange hx
    have hframe := carryOut_frame c.op (s.accept c)
    rw [← ht] at hframe
    refine ⟨(congrArg State.k hframe :), (congrArg State.bufAddr hframe :), (congrArg State.bufLen hframe :),
      (congrArg State.rdata hframe :), (congrArg State.memReady hframe :), (congrArg State.inputs hframe :),
      (congrArg State.freeIdx hframe :), ?_, fun hencode hdecode x => hmem (.inl ?_), fun _ x hx => hmem (.inr hx),
      .inl ⟨(congrArg State.err hframe :), (congrArg State.errCode hframe :)⟩⟩
    · rw [ht]
      rintro (rfl | rfl | rfl) <;> cases hc <;> rfl
    · rw [Bool.eq_false_iff, Ne, usesBuffer_of_command hc, not_or]
      exact ⟨hencode, hdecode⟩

end Sys2Proof.Machine
end

section
/-! PROOFS. Transactions and steps of the machine (44_host_transactions.md R115 to R118, R121, 70_reset_and_hazards.md R150, R151):
everything a write can do, everything a step can do, and from these the frames, reset and the scripts that load operands. -/

namespace Sys2Proof.Machine

/-! ### Everything a write can do (R115, R116, R118) -/

/-- A write of `v` to a slot, by what it leaves. -/
inductive WriteMove (v : Word) (s : State) : Slot → State → Prop where
  | key (h : s.phase = .idle) (i : KeyIndex) : WriteMove v s (.key i) (s.setKey i v)
  | data0 (h : s.phase = .idle) : WriteMove v s .data0 { s with n1 := v }
  | data1 (h : s.phase = .idle) : WriteMove v s .data1 { s with n2 := v }
  | bufAddr (h : s.phase = .idle) : WriteMove v s .bufAddr { s with bufAddr := v }
  | bufLen (h : s.phase = .idle) : WriteMove v s .bufLen { s with bufLen := v }
  | status : WriteMove v s .status (s.writeStatus v)
  | reservedE : WriteMove v s .reservedE s
  | reservedF : WriteMove v s .reservedF s
  | turnedAway (slot : Slot) (e : ErrorKind) (h : s.phase = .idle → slot = .ctrl) : WriteMove v s slot (s.raise e)
  | accepted (c : Command) (hwf : c.wellFormed = true) (hrange : usesBuffer c.op = true → s.rangeExceeded = false) :
      WriteMove v s .ctrl (s.accept c)

theorem writeBusy_moves {s : State} (h : s.phase = .run) (slot : Slot) (v : Word) :
    WriteMove v s slot (writeBusy slot v s) := by
  have hbusy : s.phase = .idle → slot = .ctrl := fun hidle => by
    rw [h] at hidle
    cases hidle
  cases slot with
  | status => exact .status
  | reservedE => exact .reservedE
  | reservedF => exact .reservedF
  | _ => exact .turnedAway _ .busyWrite hbusy

theorem offerWord_moves (v : Word) (s : State) : WriteMove v s .ctrl (offerWord v s) := by
  unfold offerWord
  split
  · exact .turnedAway _ _ fun _ => rfl
  · next c hc =>
    obtain ⟨hwf, -⟩ := (decodeCommand_eq_ok_iff v c).1 hc
    rcases offer_cases s c id with ⟨e, h⟩ | ⟨-, hrange, h⟩
    · rw [h]
      exact .turnedAway _ e fun _ => rfl
    · rw [h]
      exact .accepted c hwf hrange

theorem writeIdle_moves {s : State} (h : s.phase = .idle) (slot : Slot) (v : Word) :
    WriteMove v s slot (writeIdle slot v s) := by
  cases slot with
  | key i => exact .key h i
  | data0 => exact .data0 h
  | data1 => exact .data1 h
  | bufAddr => exact .bufAddr h
  | bufLen => exact .bufLen h
  | ctrl => exact offerWord_moves v s
  | status => exact .status
  | reservedE => exact .reservedE
  | reservedF => exact .reservedF

theorem exec_wr_moves {slot : Slot} {v : Word} {s t : State} (h : exec (.wr slot v) s = .next t) : WriteMove v s slot t := by
  cases hphase : s.phase with
  | idle =>
    rw [exec_wr_of_idle hphase] at h
    cases h
    exact writeIdle_moves hphase slot v
  | run =>
    rw [exec_wr_of_busy hphase] at h
    cases h
    exact writeBusy_moves hphase slot v

section
variable {v : Word} {s t : State} {slot : Slot}

theorem WriteMove.mem_eq (h : WriteMove v s slot t) : t.mem = s.mem := by
  cases h <;> rfl

/-- A write moves nothing of the outside world. -/
theorem WriteMove.outside (h : WriteMove v s slot t) :
    t.rdata = s.rdata ∧ t.memReady = s.memReady ∧ t.inputs = s.inputs ∧ t.freeIdx = s.freeIdx := by
  cases h <;> exact ⟨rfl, rfl, rfl, rfl⟩

theorem WriteMove.key_eq (h : WriteMove v s slot t) {i : KeyIndex} (hslot : slot ≠ .key i) : t.k[i] = s.k[i] := by
  cases h with
  | key h j => exact State.key_setKey_other s j i v fun e => hslot (congrArg Slot.key e)
  | _ => rfl

theorem WriteMove.n1_eq (h : WriteMove v s slot t) (hslot : slot ≠ .data0) : t.n1 = s.n1 := by
  cases h with
  | data0 => exact absurd rfl hslot
  | _ => rfl

theorem WriteMove.n2_eq (h : WriteMove v s slot t) (hslot : slot ≠ .data1) : t.n2 = s.n2 := by
  cases h with
  | data1 => exact absurd rfl hslot
  | _ => rfl

theorem WriteMove.bufAddr_eq (h : WriteMove v s slot t) (hslot : slot ≠ .bufAddr) : t.bufAddr = s.bufAddr := by
  cases h with
  | bufAddr => exact absurd rfl hslot
  | _ => rfl

theorem WriteMove.bufLen_eq (h : WriteMove v s slot t) (hslot : slot ≠ .bufLen) : t.bufLen = s.bufLen := by
  cases h with
  | bufLen => exact absurd rfl hslot
  | _ => rfl

/-- `BUSY` and the sequencer move through `CTRL` only. -/
theorem WriteMove.sequencer_eq (h : WriteMove v s slot t) (hslot : slot ≠ .ctrl) :
    t.phase = s.phase ∧ t.opc = s.opc ∧ t.ksel = s.ksel ∧ t.dir = s.dir ∧ t.rc = s.rc ∧ t.bph = s.bph ∧
      t.ptr = s.ptr ∧ t.cnt = s.cnt ∧ t.readEarly = s.readEarly ∧ t.storedEarly = s.storedEarly := by
  cases h with
  | accepted => exact absurd rfl hslot
  | _ => exact ⟨rfl, rfl, rfl, rfl, rfl, rfl, rfl, rfl, rfl, rfl⟩

theorem WriteMove.done_eq (h : WriteMove v s slot t) (hctrl : slot ≠ .ctrl) (hstatus : slot ≠ .status) : t.done = s.done := by
  cases h with
  | accepted => exact absurd rfl hctrl
  | status => exact absurd rfl hstatus
  | _ => rfl

theorem WriteMove.error_eq (h : WriteMove v s slot t) (hidle : s.phase = .idle) (hctrl : slot ≠ .ctrl)
    (hstatus : slot ≠ .status) : t.err = s.err ∧ t.errCode = s.errCode := by
  cases h with
  | turnedAway _ _ h => exact absurd (h hidle) hctrl
  | status => exact absurd rfl hstatus
  | _ => exact ⟨rfl, rfl⟩

end

/-- Settles O46: the clauses are read off the moves of a write, and a read leaves its value only. -/
theorem transactionFrame : Obligations.TransactionFrame := by
  unfold Obligations.TransactionFrame
  intro slot v s t hexec
  have hmove := exec_wr_moves hexec
  obtain ⟨hrdata, hready, hinputs, hfree⟩ := hmove.outside
  refine ⟨fun a => by rw [hmove.mem_eq], hrdata, hready, hinputs, hfree, fun i => hmove.key_eq, hmove.n1_eq, hmove.n2_eq,
    hmove.bufAddr_eq, hmove.bufLen_eq, hmove.sequencer_eq, hmove.done_eq, hmove.error_eq, fun u hread => ?_⟩
  rw [exec_rd] at hread
  cases hread
  rfl

/-! ### Everything a step can do (R121) -/

/-- A step is the engine's, where there is no input, or takes the first input. -/
theorem step_cases {s t : State} (h : step s = .next t) :
    s.inputs = [] ∧ t = engineStep s ∨
      ∃ i rest, s.inputs = i :: rest ∧ takeInput i { s with inputs := rest } = .next t := by
  rw [step, runNext] at h
  split at h
  · next hnil =>
    cases h
    exact .inl ⟨hnil, rfl⟩
  · next i rest hcons => exact .inr ⟨i, rest, hcons, h⟩

theorem presentForm_cases {f : Form} {s t : State} (h : presentForm f s = .next t) :
    (∃ i, decode f = .ok i ∧ exec i s = .next t) ∨ t = rejectWord s := by
  unfold presentForm at h
  split at h
  · next i hi => exact .inl ⟨i, hi, h⟩
  · cases h
    exact .inr rfl

/-- An instruction is a command, a write or a read. -/
theorem exec_cases {i : Instr} {s t : State} (h : exec i s = .next t) :
    (∃ c, i.command? = some c) ∨ (∃ slot v, i = .wr slot v ∧ WriteMove v s slot t) ∨
      ∃ slot, i = .rd slot ∧ t = { s with rdata := readSlot s slot } := by
  cases hc : i.command? with
  | some c => exact .inl ⟨c, rfl⟩
  | none =>
    rcases Instr.command?_eq_none hc with ⟨slot, v, rfl⟩ | ⟨slot, rfl⟩
    · exact .inr (.inl ⟨slot, v, rfl, exec_wr_moves h⟩)
    · rw [exec_rd] at h
      cases h
      exact .inr (.inr ⟨slot, rfl, rfl⟩)

theorem step_present_reject {s : State} {f : Form} {rest : List Input} {r : Reject} (h : s.inputs = .present f :: rest)
    (hd : decode f = .error r) : step s = .next (rejectWord { s with inputs := rest }) := by
  simp [step, runNext, h, takeInput, presentForm, hd]

/-- Settles O51: the error of a word that does not decode is chosen by `BUSY`. -/
theorem stepRunsTheDecodedInstruction : Obligations.StepRunsTheDecodedInstruction := by
  unfold Obligations.StepRunsTheDecodedInstruction
  intro s f rest hinputs
  refine ⟨fun i => step_present hinputs, fun r hr => ?_⟩
  rw [step_present_reject hinputs hr, rejectWord]
  cases s.phase <;> simp [State.busy, State.raise, ErrorKind.code]

theorem step_of_no_input {s : State} (h : s.inputs = []) : step s = .next (engineStep s) := by
  rw [step, runNext, h]

theorem step_engine {s : State} {rest : List Input} (h : s.inputs = .engine :: rest) :
    step s = .next (engineStep { s with inputs := rest }) := by
  rw [step, runNext, h]
  rfl

/-- Settles O52: with no input or an engine item a step is the engine's, which does nothing while idle. -/
theorem stepWithoutTransaction : Obligations.StepWithoutTransaction := by
  unfold Obligations.StepWithoutTransaction
  intro s
  refine ⟨fun hnil hidle => ?_, fun hnil _ => step_of_no_input hnil, fun rest => step_engine⟩
  rw [step_of_no_input hnil, engineStep_of_idle hidle]

/-! ### Key words and buffer registers (10_state.md R10, R12) -/

/-- The registers that the host alone writes are as they were. -/
def KeepsHostRegisters (s t : State) : Prop := t.k = s.k ∧ t.bufAddr = s.bufAddr ∧ t.bufLen = s.bufLen

theorem exec_keeps_host_registers {i : Instr} {s t : State} (h : exec i s = .next t) :
    KeepsHostRegisters s t ∨ ∃ slot v, i = .wr slot v ∧ WriteMove v s slot t := by
  rcases exec_cases h with ⟨c, hc⟩ | hwrite | ⟨slot, -, rfl⟩
  · obtain ⟨hk, haddr, hlen, -⟩ := commandFrame i s t (by rw [hc]; rfl) h
    exact .inl ⟨hk, haddr, hlen⟩
  · exact .inr hwrite
  · exact .inl ⟨rfl, rfl, rfl⟩

/-- A step other than reset keeps these registers, or it is a write. -/
theorem step_keeps_host_registers {s t : State} (h : step s = .next t) (hreset : ∀ rest, s.inputs ≠ .reset :: rest) :
    KeepsHostRegisters s t ∨ ∃ f rest slot v, s.inputs = .present f :: rest ∧ decode f = .ok (.wr slot v) ∧
      WriteMove v { s with inputs := rest } slot t := by
  rcases step_cases h with ⟨-, rfl⟩ | ⟨i, rest, hinputs, htake⟩
  · exact .inl ⟨engineStep_k s, engineStep_bufAddr s, engineStep_bufLen s⟩
  · cases i with
    | reset => exact absurd hinputs (hreset rest)
    | engine =>
      cases htake
      exact .inl ⟨engineStep_k _, engineStep_bufAddr _, engineStep_bufLen _⟩
    | memWrite a b =>
      cases htake
      rw [writeByOther_frame]
      exact .inl ⟨rfl, rfl, rfl⟩
    | memReady r =>
      cases htake
      exact .inl ⟨rfl, rfl, rfl⟩
    | present f =>
      rcases presentForm_cases htake with ⟨i, hi, hexec⟩ | rfl
      · rcases exec_keeps_host_registers hexec with hkeeps | ⟨slot, v, rfl, hmove⟩
        · exact .inl hkeeps
        · exact .inr ⟨f, rest, slot, v, hinputs, hi, hmove⟩
      · exact .inl ⟨rfl, rfl, rfl⟩

section
variable {v : Word} {s t : State} {slot : Slot}

/-- A write that changes a key word is one of the new value to its slot, while idle. -/
theorem WriteMove.key_changed (h : WriteMove v s slot t) {i : KeyIndex} (hne : t.k[i] ≠ s.k[i]) :
    s.phase = .idle ∧ slot = .key i ∧ v = t.k[i] := by
  obtain rfl : slot = .key i := not_not.1 fun hslot => hne (h.key_eq hslot)
  cases h with
  | key h => exact ⟨h, rfl, (State.key_setKey_same s i v).symm⟩
  | turnedAway => exact absurd rfl hne

theorem WriteMove.bufAddr_changed (h : WriteMove v s slot t) (hne : t.bufAddr ≠ s.bufAddr) :
    s.phase = .idle ∧ slot = .bufAddr ∧ v = t.bufAddr := by
  cases h with
  | bufAddr h => exact ⟨h, rfl, rfl⟩
  | _ => exact absurd rfl hne

theorem WriteMove.bufLen_changed (h : WriteMove v s slot t) (hne : t.bufLen ≠ s.bufLen) :
    s.phase = .idle ∧ slot = .bufLen ∧ v = t.bufLen := by
  cases h with
  | bufLen h => exact ⟨h, rfl, rfl⟩
  | _ => exact absurd rfl hne

end

/-- Settles O47: of all steps but reset only a write moves these registers, and it moves the one its slot names. -/
theorem onlyTheHostWritesKeyAndBufferRegisters : Obligations.OnlyTheHostWritesKeyAndBufferRegisters := by
  unfold Obligations.OnlyTheHostWritesKeyAndBufferRegisters
  intro s t hstep hreset
  rcases step_keeps_host_registers hstep hreset with ⟨hk, haddr, hlen⟩ | ⟨f, rest, slot, v, hinputs, hdecode, hmove⟩
  · exact ⟨fun i hne => absurd (by rw [hk]) hne, fun hne => absurd haddr hne, fun hne => absurd hlen hne⟩
  · refine ⟨fun i hne => ?_, fun hne => ?_, fun hne => ?_⟩
    · obtain ⟨hidle, rfl, rfl⟩ := hmove.key_changed hne
      exact ⟨hidle, f, rest, hinputs, hdecode⟩
    · obtain ⟨hidle, rfl, rfl⟩ := hmove.bufAddr_changed hne
      exact ⟨hidle, f, rest, hinputs, hdecode⟩
    · obtain ⟨hidle, rfl, rfl⟩ := hmove.bufLen_changed hne
      exact ⟨hidle, f, rest, hinputs, hdecode⟩

/-! ### Reset (R150, R151) -/

theorem storePending_eq_false {s : State} (h : s.bufferBusy = false ∨ s.bph ≠ .store) : storePending s = false := by
  rcases h with h | h
  · rw [storePending, h, Bool.false_and]
  · rw [storePending, beq_eq_false_iff_ne.2 h, Bool.and_false]

/-- Reset leaves each byte old, or as the whole store of the block in hand would leave it (R151). -/
theorem memoryAfterReset_read (s : State) (a : Word) :
    (memoryAfterReset s).read a = s.mem.read a ∨ (memoryAfterReset s).read a = (storeBlock s.mem s.ptr s.pair).read a := by
  unfold memoryAfterReset
  split
  · exact read_storeSome _ _ _ _ _ _ (by simp)
  · exact .inl rfl

/-- Settles O53: a reset input installs the reset values, and memory is a matter of the pending store. -/
theorem resetClearsTheEngine : Obligations.ResetClearsTheEngine := by
  unfold Obligations.ResetClearsTheEngine
  intro s rest hinputs
  refine ⟨_, step_reset hinputs, reset_k, rfl, rfl, rfl, rfl, rfl, rfl, rfl, rfl, resetEngine_statusWord _, rfl, rfl, rfl, rfl,
    rfl, rfl, rfl, rfl, fun h => ?_, fun a => ?_⟩
  · rw [resetEngine_mem]
    exact memoryAfterReset_of_not_storePending (storePending_eq_false (s := { s with inputs := rest }) h)
  · rw [resetEngine_mem]
    exact memoryAfterReset_read { s with inputs := rest } a

/-! ### Scripts that load operands (30_encoding.md R53) -/

/-- The first line of a script, a write while idle. -/
theorem runSteps_write {s : State} (hidle : s.phase = .idle) (n : Nat) (slot : Slot) (v : Word) (rest : List Input) :
    runSteps (n + 1) { s with inputs := transact (.wr slot v) :: rest } =
      runSteps n (writeIdle slot v { s with inputs := rest }) :=
  runSteps_succ n ((step_transact s _ rest).trans (exec_wr_of_idle (s := { s with inputs := rest }) hidle slot v))

/-- `k` with the words of `key` at the indices of `l` written one after the other. -/
def setWords (key : Key) (l : List KeyIndex) (k : Key) : Key := l.foldl (fun k (i : KeyIndex) => k.set i key[i]) k

/-- The word at an index that is written, or that was right before, is that of `key`. -/
theorem getElem_setWords (key : Key) {j : KeyIndex} {l : List KeyIndex} {k : Key} (h : j ∈ l ∨ k[j] = key[j]) :
    (setWords key l k)[j] = key[j] := by
  induction l generalizing k with
  | nil => simpa [setWords] using h
  | cons i l ih =>
    refine ih (k := k.set i key[i]) ?_
    by_cases hji : i = j
    · subst hji
      exact .inr (Vector.getElem_set_self _)
    · rcases h with hmem | hk
      · exact .inl ((List.mem_cons.1 hmem).resolve_left (Ne.symm hji))
      · exact .inr ((Vector.getElem_set_ne _ _ (fun e => hji (Fin.ext e))).trans hk)

theorem setWords_all (key k : Key) : setWords key (List.finRange 8) k = key :=
  Vector.ext fun i hi => getElem_setWords key (j := ⟨i, hi⟩) (.inl (List.mem_finRange _))

/-- Writes of key words while idle, one after the other. -/
theorem runSteps_key_writes {s : State} (hidle : s.phase = .idle) (key : Key) (l : List KeyIndex) (rest : List Input) :
    runSteps l.length { s with inputs := l.map (fun i => transact (.wr (.key i) key[i])) ++ rest } =
      .next { s with k := setWords key l s.k, inputs := rest } := by
  induction l generalizing s with
  | nil => rfl
  | cons i l ih => exact (runSteps_write hidle l.length (.key i) key[i] _).trans (ih (s := s.setKey i key[i]) hidle)

/-- Settles O59: each line of a script is a write while idle. -/
theorem scriptsLoadTheOperands : Obligations.ScriptsLoadTheOperands := by
  unfold Obligations.ScriptsLoadTheOperands
  intro s rest hidle
  refine ⟨fun key => ?_, fun p => ?_, fun a len => ?_⟩
  · have hload := runSteps_key_writes hidle key (List.finRange 8) rest
    rw [setWords_all] at hload
    exact hload
  · exact (runSteps_write hidle 1 .data0 p.1 _).trans (runSteps_write (s := { s with n1 := p.1 }) hidle 0 .data1 p.2 rest)
  · exact (runSteps_write hidle 1 .bufAddr a _).trans
      (runSteps_write (s := { s with bufAddr := a }) hidle 0 .bufLen len rest)

end Sys2Proof.Machine
end

section
/-! PROOFS. The invariant of the machine (10_state.md R13, R15, R17, 43_simple_replacement.md R103): it holds at reset, each way a
step can move the state keeps it, and under it the engine accesses its window only (20_memory.md R30, R35, R38). -/

namespace Sys2Proof.Machine

/-! ### What the invariant says of the sequencer -/

theorem not_bufferBusy_of_idle {s : State} (h : s.phase = .idle) : s.bufferBusy = false := by
  rw [State.bufferBusy, (State.not_busy_iff s).2 h, Bool.false_and]

/-- Where no buffer operation is in progress the block phase is `LOAD`. -/
theorem load_of_not_bufferBusy {s : State} (h : Inv s) (hbuffer : s.bufferBusy = false) : s.bph = .load := by
  by_contra hphase
  obtain ⟨hbusy, -⟩ := h.blockInProgress hphase
  rw [hbuffer] at hbusy
  cases hbusy

theorem ErrorKind.code_ne_zero (e : ErrorKind) : e.code ≠ 0 := by
  cases e <;> decide

/-- Codes 4 to 15 are never produced (60_exceptions.md R131). -/
theorem ErrorKind.code_le_three (e : ErrorKind) : e.code.toNat ≤ 3 := by
  cases e <;> decide

/-! ### Moves that keep the invariant -/

section
variable {s : State}

/-- The invariant sees the flags through its three clauses about them, and nothing of the outside world. -/
theorem inv_of_flags (h : Inv s) {done err : Bool} {errCode : BitVec 4} (hdone : s.busy = true → done = false)
    (hcode : errCode = 0 ↔ err = false) (hassigned : errCode.toNat ≤ 3) (rdata : Word) (memReady : Bool)
    (inputs : List Input) :
    Inv { s with done := done, err := err, errCode := errCode, rdata := rdata, memReady := memReady, inputs := inputs } :=
  { h with
    busyNotDone := hdone
    codeIffError := hcode
    codeAssigned := hassigned
    buffer := fun hb => { h.buffer hb with } }

/-- The invariant leaves the key and the pair open, and while idle the buffer registers and `DONE` too. -/
theorem inv_of_idle (h : Inv s) (hload : s.bph = .load) (k : Key) (n1 n2 bufAddr bufLen : Word) (done : Bool) :
    Inv { s with k := k, n1 := n1, n2 := n2, bufAddr := bufAddr, bufLen := bufLen, phase := .idle, done := done } :=
  { h with
    busyNotDone := fun hb => nomatch hb
    busyHasOperation := fun hb => nomatch hb
    blockInProgress := fun hphase => absurd hload hphase
    buffer := fun hb => nomatch hb }

/-- The invariant sees the memory and the records of early accesses through their canonical forms and the window. -/
theorem inv_of_memory (h : Inv s) {mem readEarly storedEarly : Memory} (hmem : mem.wf = true)
    (hearly : readEarly.wf = true ∧ storedEarly.wf = true)
    (hwindow : s.bufferBusy = true → ∀ a : Word,
      (lookup readEarly a.toNat).isSome = true ∨ (lookup storedEarly a.toNat).isSome = true → s.inWindow a = true)
    (freeIdx : Nat) :
    Inv { s with mem := mem, readEarly := readEarly, storedEarly := storedEarly, freeIdx := freeIdx } :=
  { h with
    memCanonical := hmem
    earlyCanonical := hearly
    buffer := fun hb => { h.buffer hb with earlyInWindow := hwindow hb } }

/-- Recording an error keeps the invariant (60_exceptions.md R131, R136). -/
theorem inv_raise (h : Inv s) (e : ErrorKind) : Inv (s.raise e) := by
  refine inv_of_flags h h.busyNotDone ?_ ?_ s.rdata s.memReady s.inputs
  · cases herr : s.err with
    | true =>
      have hcode := h.codeIffError
      rw [herr] at hcode
      simpa using hcode
    | false => exact iff_of_false e.code_ne_zero (by decide)
  · cases s.err with
    | true => exact h.codeAssigned
    | false => exact e.code_le_three

/-- A write to `STATUS` keeps the invariant (60_exceptions.md R137). -/
theorem inv_writeStatus (h : Inv s) (m : Word) : Inv (s.writeStatus m) := by
  refine inv_of_flags h (fun hb => ?_) ?_ ?_ s.rdata s.memReady s.inputs
  · rw [h.busyNotDone hb, Bool.false_and]
  · cases m.getLsbD 2 with
    | true => exact iff_of_true rfl rfl
    | false => exact h.codeIffError
  · cases m.getLsbD 2 with
    | true => exact Nat.zero_le 3
    | false => exact h.codeAssigned

/-- Completion keeps the invariant where no block is being worked on (44_host_transactions.md R119). -/
theorem inv_complete (h : Inv s) (hload : s.bph = .load) (p : Pair) : Inv (s.setPair p).complete :=
  inv_of_idle h hload s.k p.1 p.2 s.bufAddr s.bufLen true

/-- Acceptance sets up the sequencer of a buffer operation at its first block (44_host_transactions.md R118). -/
theorem inv_accept (h : Inv s) {c : Command} (hwf : c.wellFormed = true)
    (hrange : usesBuffer c.op = true → s.rangeExceeded = false) : Inv (s.accept c) :=
  { h with
    earlyCanonical := ⟨rfl, rfl⟩
    busyNotDone := fun _ => rfl
    roundsAtMost32 := Nat.zero_le 32
    busyHasOperation := fun _ => rfl
    directionLatched := rfl
    subkeyOnlyForRound := fun hround => by
      have hop : c.op ≠ .round := fun e => hround (congrArg some e)
      simpa [Command.wellFormed, hop] using hwf
    blockInProgress := fun hphase => absurd rfl hphase
    buffer := fun hb =>
      { inRange := hrange hb
        blocksLeft := Nat.le_of_eq (accept_cnt_toNat c)
        pointer := by
          rw [accept_cnt_toNat, State.accept_bufLen, Nat.sub_self]
          exact (BitVec.add_zero _).symm
        storeAfterRounds := fun hstore => nomatch hstore
        earlyInWindow := fun _ hlisted => hlisted.elim (fun h => nomatch h) fun h => nomatch h } }

theorem inv_roundStep (h : Inv s) (hrc : s.rc.toNat < 32) : Inv (roundStep s) :=
  { h with
    roundsAtMost32 := by
      show (s.rc + 1).toNat ≤ 32
      rw [BitVec.toNat_add]
      exact (Nat.mod_le _ _).trans hrc
    buffer := fun hb =>
      { h.buffer hb with
        storeAfterRounds := fun hstore => by
          rw [(h.buffer hb).storeAfterRounds hstore] at hrc
          exact absurd hrc (by decide) } }

theorem inv_atRounds (h : Inv s) (hbuffer : s.bufferBusy = true) (hcnt : s.cnt ≠ 0) (p : Pair) : Inv (s.atRounds p) :=
  { h with
    roundsAtMost32 := Nat.zero_le 32
    blockInProgress := fun _ => ⟨hbuffer, Nat.pos_of_ne_zero fun e => hcnt (BitVec.eq_of_toNat_eq e)⟩
    buffer := fun hb => { h.buffer hb with storeAfterRounds := fun hstore => nomatch hstore } }

/-- The exchange after the last round of a buffer's block. -/
theorem inv_swap (h : Inv s) (hrounds : s.bph = .rounds) (hrc : 32 ≤ s.rc.toNat) (p : Pair) :
    Inv { s.setPair p with bph := .store } :=
  { h with
    blockInProgress := fun _ => h.blockInProgress (by rw [hrounds]; decide)
    buffer := fun hb =>
      { h.buffer hb with
        storeAfterRounds := fun _ => BitVec.eq_of_toNat_eq (Nat.le_antisymm h.roundsAtMost32 hrc) } }

/-- After the store of a block `PTR` is the next block's address and one block fewer is left. -/
theorem inv_store (h : Inv s) (hstore : s.bph = .store) {mem : Memory} (hmem : mem.wf = true) :
    Inv { s with mem := mem, ptr := s.ptr + 8, cnt := s.cnt - 1, bph := .load } := by
  obtain ⟨-, hpos⟩ := h.blockInProgress (by rw [hstore]; decide)
  have hcnt : (s.cnt - 1).toNat = s.cnt.toNat - 1 := by
    have hlt := s.cnt.isLt
    have hone : (1 : BitVec 29).toNat = 1 := rfl
    rw [BitVec.toNat_sub, hone]
    omega
  refine { h with memCanonical := hmem, blockInProgress := fun hphase => absurd rfl hphase, buffer := fun hb => ?_ }
  have hinv := h.buffer hb
  have hleft := hinv.blocksLeft
  refine { hinv with blocksLeft := ?_, pointer := ?_, storeAfterRounds := fun hstore => nomatch hstore }
  · show (s.cnt - 1).toNat ≤ s.bufLen.toNat / 8
    omega
  · show s.ptr + 8 = blockAddr s.bufAddr (s.bufLen.toNat / 8 - (s.cnt - 1).toNat)
    rw [hinv.pointer, blockAddr_succ, hcnt]
    congr 1
    omega

/-! ### Engine steps, instructions and inputs keep the invariant -/

theorem not_bufferBusy_of_opc {op : Opcode} (hopc : s.opc = some op) (hop : usesBuffer op = false) : s.bufferBusy = false := by
  rw [State.bufferBusy, hopc]
  exact (congrArg _ hop).trans (Bool.and_false _)

theorem inv_engineStep (h : Inv s) : Inv (engineStep s) := by
  have hmove := engineStep_moves s
  generalize engineStep s = t at hmove
  cases hmove with
  | idle | noOperation | waits => exact h
  | single op t _ hopc ht =>
    have hop : usesBuffer op = false := by
      cases op with
      | encode | decode => cases ht
      | _ => rfl
    rw [singleStep_eq ht]
    exact inv_complete h (load_of_not_bufferBusy h (not_bufferBusy_of_opc hopc hop)) _
  | round _ hrc => exact inv_roundStep h hrc
  | finishBlock _ hopc =>
    refine inv_complete h (load_of_not_bufferBusy h ?_) _
    rcases hopc with hopc | hopc
    · exact not_bufferBusy_of_opc hopc rfl
    · exact not_bufferBusy_of_opc hopc rfl
  | finishBuffer _ hload => exact inv_complete h hload s.pair
  | load hbuffer _ hcnt => exact inv_atRounds h hbuffer hcnt _
  | swap _ hrounds hrc => exact inv_swap h hrounds hrc _
  | store _ hstore => exact inv_store h hstore (wf_storeSome _ _ _ _ h.memCanonical)

theorem inv_engineSteps (h : Inv s) (n : Nat) : Inv (engineSteps n s) := by
  induction n with
  | zero => exact h
  | succ n ih =>
    rw [engineSteps_succ]
    exact inv_engineStep ih

theorem inv_writeMove {v : Word} {slot : Slot} {t : State} (h : Inv s) (hmove : WriteMove v s slot t) : Inv t := by
  have hload (hidle : s.phase = .idle) : s.bph = .load := load_of_not_bufferBusy h (not_bufferBusy_of_idle hidle)
  have hwrite (hidle : s.phase = .idle) (k : Key) (n1 n2 bufAddr bufLen : Word) :
      Inv { s with k := k, n1 := n1, n2 := n2, bufAddr := bufAddr, bufLen := bufLen } := by
    have hinv := inv_of_idle h (hload hidle) k n1 n2 bufAddr bufLen s.done
    rwa [← hidle] at hinv
  cases hmove with
  | key hidle i => exact hwrite hidle (s.k.set i v) s.n1 s.n2 s.bufAddr s.bufLen
  | data0 hidle => exact hwrite hidle s.k v s.n2 s.bufAddr s.bufLen
  | data1 hidle => exact hwrite hidle s.k s.n1 v s.bufAddr s.bufLen
  | bufAddr hidle => exact hwrite hidle s.k s.n1 s.n2 v s.bufLen
  | bufLen hidle => exact hwrite hidle s.k s.n1 s.n2 s.bufAddr v
  | status => exact inv_writeStatus h v
  | reservedE | reservedF => exact h
  | turnedAway _ e => exact inv_raise h e
  | accepted c hwf hrange => exact inv_accept h hwf hrange

/-- A command that is carried out leaves a state that the engine's steps reach from acceptance (00_scope.md section 5). -/
theorem inv_exec {i : Instr} {t : State} (h : Inv s) (hexec : exec i s = .next t) : Inv t := by
  rcases exec_cases hexec with ⟨c, hc⟩ | ⟨slot, v, -, hmove⟩ | ⟨slot, -, rfl⟩
  · obtain ⟨hwf, -, -⟩ := Instr.command?_eq_some hc
    rcases exec_command_cases hc hexec with ⟨e, rfl⟩ | ⟨-, hrange, rfl⟩
    · exact inv_raise h e
    · rw [← engineSteps_accept]
      exact inv_engineSteps (inv_accept h hwf hrange) _
  · exact inv_writeMove h hmove
  · exact inv_of_flags h h.busyNotDone h.codeIffError h.codeAssigned _ s.memReady s.inputs

theorem inv_writeByOther (h : Inv s) (a : Word) (b : Byte) : Inv (writeByOther a b s) := by
  obtain ⟨hread, hstored⟩ := h.earlyCanonical
  obtain ⟨hmem', hread', hstored'⟩ := wf_writeByOther a b h.memCanonical hread hstored
  rw [writeByOther_frame]
  refine inv_of_memory h hmem' ⟨hread', hstored'⟩ (fun hb x hx => ?_) _
  rcases writeByOther_early hx with hlisted | hlisted | ⟨hunfinished, i, hi, rfl⟩
  · exact (h.buffer hb).earlyInWindow x (.inl hlisted)
  · exact (h.buffer hb).earlyInWindow x (.inr hlisted)
  · exact blockOf_inWindow h hunfinished hi

end

/-- Settles O55: after reset nothing is listed, flagged or in progress. -/
theorem invariantAtReset : Obligations.InvariantAtReset := by
  unfold Obligations.InvariantAtReset
  exact
    { memCanonical := rfl
      earlyCanonical := ⟨rfl, rfl⟩
      busyNotDone := fun _ => rfl
      codeIffError := iff_of_true rfl rfl
      codeAssigned := Nat.zero_le 3
      roundsAtMost32 := Nat.zero_le 32
      busyHasOperation := fun hb => nomatch hb
      directionLatched := rfl
      subkeyOnlyForRound := fun _ => rfl
      blockInProgress := fun hphase => absurd rfl hphase
      buffer := fun hb => nomatch hb }

theorem wf_memoryAfterReset {s : State} (h : s.mem.wf = true) : (memoryAfterReset s).wf = true := by
  unfold memoryAfterReset
  split
  · exact wf_storeSome _ _ _ _ h
  · exact h

theorem inv_resetEngine {s : State} (h : Inv s) : Inv (resetEngine s) :=
  { invariantAtReset with
    memCanonical := wf_memoryAfterReset h.memCanonical
    buffer := fun hb => nomatch hb }

theorem inv_takeInput {i : Input} {s t : State} (h : Inv s) (htake : takeInput i s = .next t) : Inv t := by
  cases i with
  | present f =>
    rcases presentForm_cases htake with ⟨i, -, hexec⟩ | rfl
    · exact inv_exec h hexec
    · exact inv_raise h _
  | engine =>
    cases htake
    exact inv_engineStep h
  | reset =>
    cases htake
    exact inv_resetEngine h
  | memWrite a b =>
    cases htake
    exact inv_writeByOther h a b
  | memReady r =>
    cases htake
    exact inv_of_flags h h.busyNotDone h.codeIffError h.codeAssigned s.rdata r s.inputs

/-- Settles O56: a step is the engine's or takes an input, and each of their moves keeps the invariant. -/
theorem stepKeepsTheInvariant : Obligations.StepKeepsTheInvariant := by
  unfold Obligations.StepKeepsTheInvariant
  intro s t h hstep
  rcases step_cases hstep with ⟨-, rfl⟩ | ⟨i, rest, -, htake⟩
  · exact inv_engineStep h
  · exact inv_takeInput (inv_inputs rest h) htake

/-! ### Accesses stay inside the window (20_memory.md R30, R35) -/

/-- Settles O49: a requested block is the one at `PTR`, of which the invariant says that it is a block of the window. -/
theorem requestsStayInsideTheWindow : Obligations.RequestsStayInsideTheWindow := by
  unfold Obligations.RequestsStayInsideTheWindow
  intro s r h hrequest
  obtain ⟨hbuffer, haddr, hphase⟩ := request_cases hrequest
  have hpos : 0 < s.cnt.toNat := by
    rcases hphase with ⟨-, hcnt⟩ | hstore
    · exact Nat.pos_of_ne_zero fun e => hcnt (BitVec.eq_of_toNat_eq e)
    · exact (h.blockInProgress (by rw [hstore]; decide)).2
  rw [haddr]
  exact ⟨hbuffer, pointer_inWindow h hbuffer hpos⟩

section
variable {s t : State} {a : Word}

/-- A store of any bytes of the block at `PTR` changes bytes of the window only. -/
theorem inWindow_of_storeSome_ne (h : Inv s) (hstore : s.bph = .store) {skip : Memory} {p : Pair} {mask : BitVec 8}
    (hne : (storeSome skip s.mem s.ptr (blockBytes p) mask).read a ≠ s.mem.read a) :
    s.inWindow a = true ∧ s.bufferBusy = true := by
  obtain ⟨hbuffer, hpos⟩ := h.blockInProgress (by rw [hstore]; decide)
  obtain ⟨-, hwindow⟩ := pointer_inWindow h hbuffer hpos
  rcases read_storeSome_block skip s.mem s.ptr a p mask with hsame | ⟨i, hi, rfl, -⟩
  · exact absurd hsame hne
  · exact ⟨hwindow i hi, hbuffer⟩

theorem inWindow_of_engineStep_ne (h : Inv s) (hne : (engineStep s).mem.read a ≠ s.mem.read a) :
    s.inWindow a = true ∧ s.bufferBusy = true := by
  have hmove := engineStep_moves s
  generalize engineStep s = t at hmove hne
  cases hmove with
  | store _ hstore => exact inWindow_of_storeSome_ne h hstore hne
  | single op t _ _ ht =>
    rw [singleStep_eq ht] at hne
    exact absurd rfl hne
  | _ => exact absurd rfl hne

theorem inWindow_of_exec_ne {i : Instr} (hexec : exec i s = .next t) (hne : t.mem.read a ≠ s.mem.read a) :
    s.inWindow a = true ∧ (i = .encode ∨ i = .decode) := by
  rcases exec_cases hexec with ⟨c, hc⟩ | ⟨slot, v, -, hmove⟩ | ⟨slot, -, rfl⟩
  · rcases exec_command_cases hc hexec with ⟨e, rfl⟩ | ⟨-, hrange, rfl⟩
    · exact absurd rfl hne
    · have hboth : ¬ (usesBuffer c.op = false ∨ s.inWindow a = false) :=
        fun hx => hne (carryOut_accept_read_outside hrange hx)
      rw [not_or, Bool.not_eq_false, Bool.not_eq_false, usesBuffer_of_command hc] at hboth
      exact hboth.symm
  · exact absurd (by rw [hmove.mem_eq]) hne
  · exact absurd rfl hne

theorem inWindow_of_reset_ne (h : Inv s) (hne : (memoryAfterReset s).read a ≠ s.mem.read a) :
    s.inWindow a = true ∧ s.bufferBusy = true := by
  cases hpending : storePending s with
  | false => exact absurd (by rw [memoryAfterReset_of_not_storePending hpending]) hne
  | true =>
    rw [memoryAfterReset, if_pos hpending] at hne
    rw [storePending, Bool.and_eq_true, beq_iff_eq] at hpending
    exact inWindow_of_storeSome_ne h hpending.2 hne

theorem inWindow_of_writeByOther_ne (h : Inv s) {x : Word} {b : Byte} (hx : a ≠ x)
    (hne : (writeByOther x b s).mem.read a ≠ s.mem.read a) : s.inWindow a = true ∧ s.bufferBusy = true := by
  rcases writeByOther_read_other (s := s) b hx with hsame | ⟨hunfinished, i, hi, rfl, -⟩
  · exact absurd hsame hne
  · refine ⟨blockOf_inWindow h hunfinished hi, ?_⟩
    simp only [State.unfinished, State.owns, Bool.and_eq_true] at hunfinished
    exact hunfinished.1.1.1

/-- An input that changes a byte, other than the one it writes itself, changes one of the window. -/
theorem inWindow_of_takeInput_ne {i : Input} (h : Inv s) (htake : takeInput i s = .next t)
    (hother : ∀ b, i ≠ .memWrite a b) (hne : t.mem.read a ≠ s.mem.read a) :
    s.inWindow a = true ∧
      (s.bufferBusy = true ∨ ∃ f, i = .present f ∧ (decode f = .ok .encode ∨ decode f = .ok .decode)) := by
  cases i with
  | present f =>
    rcases presentForm_cases htake with ⟨i, hi, hexec⟩ | rfl
    · obtain ⟨hwindow, rfl | rfl⟩ := inWindow_of_exec_ne hexec hne
      · exact ⟨hwindow, .inr ⟨f, rfl, .inl hi⟩⟩
      · exact ⟨hwindow, .inr ⟨f, rfl, .inr hi⟩⟩
    · exact absurd rfl hne
  | engine =>
    cases htake
    exact (inWindow_of_engineStep_ne h hne).imp_right .inl
  | reset =>
    cases htake
    exact (inWindow_of_reset_ne h hne).imp_right .inl
  | memWrite x b =>
    cases htake
    have hx : a ≠ x := fun e => hother b (by rw [e])
    exact (inWindow_of_writeByOther_ne h hx hne).imp_right .inl
  | memReady r =>
    cases htake
    exact absurd rfl hne

end

/-- Settles O48: whatever changes a byte, the engine's store, one cut short by reset, one done early, or a whole ENCODE or
DECODE, changes a byte of a block of the window. -/
theorem onlyTheWindowIsWritten : Obligations.OnlyTheWindowIsWritten := by
  unfold Obligations.OnlyTheWindowIsWritten
  intro s t a h hstep hother hne
  rcases step_cases hstep with ⟨-, rfl⟩ | ⟨i, rest, hinputs, htake⟩
  · exact (inWindow_of_engineStep_ne h hne).imp_right .inl
  · have hi : ∀ b, i ≠ .memWrite a b := fun b e => hother b rest (by rw [hinputs, e])
    refine (inWindow_of_takeInput_ne (inv_inputs rest h) htake hi hne).imp_right (Or.imp_right ?_)
    rintro ⟨f, rfl, hdecode⟩
    exact ⟨f, rest, hinputs, hdecode⟩

/-! ### Another agent's write (R38, 70_reset_and_hazards.md R155, 93_implementation_defined.md U6) -/

theorem takeInput_goes_on (i : Input) (s : State) : ∃ t, takeInput i s = .next t := by
  cases i with
  | present f =>
    rw [takeInput, presentForm]
    cases decode f with
    | ok i => exact exec_goes_on i s
    | error r => exact ⟨_, rfl⟩
  | _ => exact ⟨_, rfl⟩

/-- Nothing stops the machine (60_exceptions.md R130, R139). -/
theorem step_goes_on (s : State) : SafeStep s := by
  rw [SafeStep, step, runNext]
  cases s.inputs with
  | nil => exact ⟨_, rfl⟩
  | cons i rest => exact takeInput_goes_on i _

theorem step_memWrite {s : State} {a : Word} {b : Byte} {rest : List Input} (h : s.inputs = .memWrite a b :: rest) :
    step s = .next (writeByOther a b { s with inputs := rest }) := by
  rw [step, runNext, h]
  rfl

/-- Nothing is recorded as accessed before its turn. -/
def NothingEarly (s : State) : Prop := s.readEarly = [] ∧ s.storedEarly = []

theorem nothingEarly_engineStep {s : State} (h : NothingEarly s) : NothingEarly (engineStep s) := by
  rw [engineStep_frame]
  exact h

theorem nothingEarly_exec {i : Instr} {s t : State} (h : NothingEarly s) (hexec : exec i s = .next t) : NothingEarly t := by
  rcases exec_cases hexec with ⟨c, hc⟩ | ⟨slot, v, -, hmove⟩ | ⟨slot, -, rfl⟩
  · rcases exec_command_cases hc hexec with ⟨e, rfl⟩ | ⟨-, -, rfl⟩
    · exact h
    · rw [carryOut_frame]
      exact ⟨rfl, rfl⟩
  · cases hmove with
    | accepted => exact ⟨rfl, rfl⟩
    | _ => exact h
  · exact h

/-- Only another agent's write into the engine's window records an early access. -/
theorem nothingEarly_takeInput {i : Input} {s t : State} (h : NothingEarly s) (htake : takeInput i s = .next t)
    (hexclusive : ∀ a b, i = .memWrite a b → s.owns a = false) : NothingEarly t := by
  cases i with
  | present f =>
    rcases presentForm_cases htake with ⟨i, -, hexec⟩ | rfl
    · exact nothingEarly_exec h hexec
    · exact h
  | engine =>
    cases htake
    exact nothingEarly_engineStep h
  | reset =>
    cases htake
    exact ⟨rfl, rfl⟩
  | memWrite a b =>
    cases htake
    have hfinished : s.unfinished a = false := by
      rw [State.unfinished, hexclusive a b rfl, Bool.false_and, Bool.false_and]
    rw [writeByOther_of_finished b hfinished]
    exact h
  | memReady r =>
    cases htake
    exact h

/-- Settles O57: the write is done whatever the engine is at; it meets an unfinished block or changes one byte alone, and only
in the first case is anything recorded. -/
theorem anotherAgentsWriteGoesOn : Obligations.AnotherAgentsWriteGoesOn := by
  unfold Obligations.AnotherAgentsWriteGoesOn
  refine ⟨step_goes_on, fun s a b rest hinputs => ?_, fun s t hexclusive hread hstored hstep => ?_⟩
  · refine ⟨_, step_memWrite hinputs, writeByOther_read_same a b _, ?_, fun hfinished => ?_, fun _ x hx => ?_⟩
    · exact writeByOther_frame a b _
    · rw [writeByOther_of_finished (s := { s with inputs := rest }) b hfinished]
      exact ⟨fun x hx => Memory.read_write_other _ _ hx, rfl, rfl⟩
    · refine (writeByOther_read_other (s := { s with inputs := rest }) b hx).imp_right ?_
      rintro ⟨-, hbyte⟩
      rwa [blockResult_inputs] at hbyte
  · rcases step_cases hstep with ⟨-, rfl⟩ | ⟨i, rest, hinputs, htake⟩
    · exact nothingEarly_engineStep ⟨hread, hstored⟩
    · refine nothingEarly_takeInput (s := { s with inputs := rest }) ⟨hread, hstored⟩ htake fun a b hi => ?_
      exact hexclusive a b rest (by rw [hinputs, hi])

end Sys2Proof.Machine
end
